-- ==== Sys2Proof/Word.lean ====
section
/-! DEFINITION. The two word types of the interface: a frame byte (00_scope R9) and an interface word (30_encoding R60, R62,
R63, R66). Bits are numbered by weight index (00_scope R13): bit 0 is the least significant. -/

namespace Sys2Proof

/-- A `u8`: one byte of the frame buffer. -/
abbrev Byte := BitVec 8

/-- A `u32`: a command word, an operand word, a status word or a result. -/
abbrev Word := BitVec 32

end Sys2Proof
end

