-- ==== Sys2Proof/Config.lean ====
section
/-! DEFINITION. What is fixed for one instance of the block, and the values the spec leaves open. An `opaque` constant has no
body, so nothing can be proved about its value. -/

namespace Sys2Proof

/-- `MAX_LENGTH` (00_scope R9): the longest legal field. -/
def Config.maxLength : Nat := 32

/-- `FRAME_BYTES` of the machine that `State.reset` describes. 92_eei_decisions D3 leaves the parameter OPEN, so no value is
given. Statements about steps range over every value of `State.frameBytes`. DESIGN CHOICE, safe (log 2). -/
opaque Config.frameBytes : Nat

/-- The byte at an index of the frame at power-on, until something writes it: UNSPECIFIED, any value (10_state R29,
70_reset R161). A free value, safe (log 1). -/
opaque Config.powerOnByte : Nat → Byte

/-- The sign of a NaN when one is written as a pattern. A free value, safe, never seen in a response (41 R111, log 9). -/
opaque Config.nanSign : Bool

/-- What decides the fraction of a NaN when one is written as a pattern (`F32.toBits`): every non-zero fraction is possible.
A free value, safe, never seen in a response (41 R111, log 9). -/
opaque Config.nanFraction : Nat

end Sys2Proof
end

