-- ==== Sys2Proof/Syntax.lean ====
section
/-! DEFINITION. The words a host presents (30_encoding R60, R62, R63) and the six commands of the opcode map (R61) with the
operands each of them uses. -/

namespace Sys2Proof

/-- What the host presents to issue one command: the command word and the three operand words, in parallel
(30_encoding R60, R62, R63, R70). -/
structure Command where
  cmd   : Word
  value : Word
  scale : Word
  add   : Word
  deriving DecidableEq, Repr

/-- The commands of 30_encoding R61, each with the operands it uses (R61's last columns, R65). `offset` and `length` are exact
unsigned integers, and `scale`, `add` and a physical `value` are raw binary32 patterns. -/
inductive Instr where
  /-- DECODE_BITS (40_bit_codec R88). -/
  | decodeBits (offset length : Nat)
  /-- ENCODE_BITS (40_bit_codec R90). -/
  | encodeBits (offset length : Nat) (value : Word)
  /-- DECODE_BOOL (41_field_codec R120). -/
  | decodeBool (offset : Nat)
  /-- ENCODE_BOOL (41_field_codec R121): `value` is `VALUE[0]`. -/
  | encodeBool (offset : Nat) (value : Bool)
  /-- DECODE_SCALED (41_field_codec R122). -/
  | decodeScaled (offset length : Nat) (scale add : Word)
  /-- ENCODE_SCALED (41_field_codec R123). -/
  | encodeScaled (offset length : Nat) (value scale add : Word)
  deriving DecidableEq, Repr

end Sys2Proof
end

