-- ==== Sys2Proof/WellFormed.lean ====
section
/-! DEFINITION. Which commands can be encoded: `OFFSET` and `LENGTH` are 8-bit fields (30_encoding R60), and a larger operand
cannot be written in a command word (R72). A length of 0 or of 33 to 255 is encodable, and fails when it is performed (R69). -/

namespace Sys2Proof

/-- A number an 8-bit field of the command word can hold (30_encoding R60, R72). -/
def fitsField (n : Nat) : Bool := decide (n < 256)

/-- The command can be encoded in a command word (30_encoding R72). -/
def Instr.wellFormed : Instr → Bool
  | .decodeBits o l         => fitsField o && fitsField l
  | .encodeBits o l _       => fitsField o && fitsField l
  | .decodeBool o           => fitsField o
  | .encodeBool o _         => fitsField o
  | .decodeScaled o l _ _   => fitsField o && fitsField l
  | .encodeScaled o l _ _ _ => fitsField o && fitsField l

end Sys2Proof
end

