-- ==== Sys2Proof/Decode.lean ====
section
/-! DEFINITION. The command decoder (30_encoding R68), total on every command word and rejecting by name, and after it the
encoder (R60, R61, R72) and the opcode table's rows. -/

namespace Sys2Proof

/-- `CMD[2:0]` (30_encoding R60). -/
def Command.op (c : Command) : BitVec 3 := c.cmd.extractLsb' 0 3

/-- `CMD[7:3]`, reserved (30_encoding R60). -/
def Command.rsv0 (c : Command) : BitVec 5 := c.cmd.extractLsb' 3 5

/-- `CMD[15:8]` (30_encoding R60). -/
def Command.offsetField (c : Command) : BitVec 8 := c.cmd.extractLsb' 8 8

/-- `CMD[23:16]` (30_encoding R60). -/
def Command.lengthField (c : Command) : BitVec 8 := c.cmd.extractLsb' 16 8

/-- `CMD[31:24]`, reserved (30_encoding R60). -/
def Command.rsv1 (c : Command) : BitVec 8 := c.cmd.extractLsb' 24 8

/-- The operation a legal `OP` names (30_encoding R61). -/
inductive Opcode where
  | decodeBits | encodeBits | decodeBool | encodeBool | decodeScaled | encodeScaled
  deriving DecidableEq, Repr

/-- The opcode map (30_encoding R61): `110` and `111` are reserved. -/
def Opcode.ofBits (b : BitVec 3) : Option Opcode :=
  match b.toNat with
  | 0 => some .decodeBits
  | 1 => some .encodeBits
  | 2 => some .decodeBool
  | 3 => some .encodeBool
  | 4 => some .decodeScaled
  | 5 => some .encodeScaled
  | _ => none

/-- The `OP` of an operation (30_encoding R61). -/
def Opcode.bits : Opcode → BitVec 3
  | .decodeBits   => 0
  | .encodeBits   => 1
  | .decodeBool   => 2
  | .encodeBool   => 3
  | .decodeScaled => 4
  | .encodeScaled => 5

/-- The BOOL opcodes, whose `LENGTH` must be 0 (30_encoding R60, R61). -/
def Opcode.isBool : Opcode → Bool
  | .decodeBool | .encodeBool => true
  | .decodeBits | .encodeBits | .decodeScaled | .encodeScaled => false

/-- Why a command word is illegal (30_encoding R68, R69). Each of them is answered with ILLEGAL_COMMAND. -/
inductive DecodeError where
  /-- `OP` is `110` or `111`. -/
  | reservedOpcode
  /-- `RSV0` or `RSV1` is not 0. -/
  | reservedField
  /-- A BOOL opcode has a `LENGTH` that is not 0. -/
  | boolLength
  deriving DecidableEq, Repr

/-- Operand assembly (30_encoding R62, R63, R65): the fields zero-extended, the operand words as they are. -/
def Command.instr (c : Command) : Opcode → Instr
  | .decodeBits   => .decodeBits c.offsetField.toNat c.lengthField.toNat
  | .encodeBits   => .encodeBits c.offsetField.toNat c.lengthField.toNat c.value
  | .decodeBool   => .decodeBool c.offsetField.toNat
  | .encodeBool   => .encodeBool c.offsetField.toNat (c.value.getLsbD 0)
  | .decodeScaled => .decodeScaled c.offsetField.toNat c.lengthField.toNat c.scale c.add
  | .encodeScaled => .encodeScaled c.offsetField.toNat c.lengthField.toNat c.value c.scale c.add

/-- `decode_cmd` (30_encoding R68), its checks in the rule's order. -/
def decode (c : Command) : Except DecodeError Instr :=
  match Opcode.ofBits c.op with
  | none => .error .reservedOpcode
  | some op =>
    if c.rsv0 ≠ 0 ∨ c.rsv1 ≠ 0 then .error .reservedField
    else if op.isBool = true ∧ c.lengthField ≠ 0 then .error .boolLength
    else .ok (c.instr op)

/-- The operation a command names (30_encoding R61). -/
def Instr.opcode : Instr → Opcode
  | .decodeBits _ _         => .decodeBits
  | .encodeBits _ _ _       => .encodeBits
  | .decodeBool _           => .decodeBool
  | .encodeBool _ _         => .encodeBool
  | .decodeScaled _ _ _ _   => .decodeScaled
  | .encodeScaled _ _ _ _ _ => .encodeScaled

/-- The number in the field `OFFSET` (30_encoding R65). -/
def Instr.offset : Instr → Nat
  | .decodeBits o _         => o
  | .encodeBits o _ _       => o
  | .decodeBool o           => o
  | .encodeBool o _         => o
  | .decodeScaled o _ _ _   => o
  | .encodeScaled o _ _ _ _ => o

/-- The number in the field `LENGTH`, 0 for the BOOL commands (30_encoding R60). -/
def Instr.lengthNumber : Instr → Nat
  | .decodeBits _ l         => l
  | .encodeBits _ l _       => l
  | .decodeBool _           => 0
  | .encodeBool _ _         => 0
  | .decodeScaled _ l _ _   => l
  | .encodeScaled _ l _ _ _ => l

/-- The command word of 30_encoding R60 with its reserved fields 0: `{RSV1, LENGTH, OFFSET, RSV0, OP}`. -/
def encodeCmd (op : Opcode) (offset length : Nat) : Word :=
  (0 : BitVec 8) ++ BitVec.ofNat 8 length ++ BitVec.ofNat 8 offset ++ (0 : BitVec 5) ++ op.bits

/-- `VALUE` for a boolean operand: 1 is true, 0 is false (30_encoding R62). -/
def boolWord (b : Bool) : Word := if b then 1 else 0

/-- The words of a command (30_encoding R60 to R63, R72). An operand the command does not use is 0 (R71), and so is the length
of a BOOL command (R72). -/
def encode : Instr → Command
  | .decodeBits o l         => { cmd := encodeCmd .decodeBits o l, value := 0, scale := 0, add := 0 }
  | .encodeBits o l v       => { cmd := encodeCmd .encodeBits o l, value := v, scale := 0, add := 0 }
  | .decodeBool o           => { cmd := encodeCmd .decodeBool o 0, value := 0, scale := 0, add := 0 }
  | .encodeBool o b         => { cmd := encodeCmd .encodeBool o 0, value := boolWord b, scale := 0, add := 0 }
  | .decodeScaled o l sc ad => { cmd := encodeCmd .decodeScaled o l, value := 0, scale := sc, add := ad }
  | .encodeScaled o l v sc ad => { cmd := encodeCmd .encodeScaled o l, value := v, scale := sc, add := ad }

/-- One row of opcode_table.json: a command word `w` belongs to it when `w &&& mask = pattern`. -/
structure OpcodeRow where
  mnemonic : String
  mask     : Word
  pattern  : Word
  op       : Opcode
  deriving DecidableEq, Repr

/-- The rows of opcode_table.json, in its order. -/
def opcodeTable : List OpcodeRow :=
  [ { mnemonic := "DECODE_BITS",   mask := 0xFF0000FF, pattern := 0x00000000, op := .decodeBits },
    { mnemonic := "ENCODE_BITS",   mask := 0xFF0000FF, pattern := 0x00000001, op := .encodeBits },
    { mnemonic := "DECODE_BOOL",   mask := 0xFFFF00FF, pattern := 0x00000002, op := .decodeBool },
    { mnemonic := "ENCODE_BOOL",   mask := 0xFFFF00FF, pattern := 0x00000003, op := .encodeBool },
    { mnemonic := "DECODE_SCALED", mask := 0xFF0000FF, pattern := 0x00000004, op := .decodeScaled },
    { mnemonic := "ENCODE_SCALED", mask := 0xFF0000FF, pattern := 0x00000005, op := .encodeScaled } ]

/-- The row's test on a command word. -/
def OpcodeRow.covers (r : OpcodeRow) (w : Word) : Bool := w &&& r.mask == r.pattern

/-- A command numbered as opcode_table.json numbers an instruction's bits: `CMD` is the first word, and `VALUE`, `SCALE` and
`ADD` follow it. The bits above `nbits` are 0. DESIGN CHOICE, safe: the words are presented in parallel (20_memory R43), so
this order is only a numbering (log 11). -/
def Command.ofTableWord (nbits w : Nat) : Command :=
  let bits := w % 2 ^ nbits
  { cmd   := BitVec.ofNat 32 bits
    value := BitVec.ofNat 32 (bits / 2 ^ 32)
    scale := BitVec.ofNat 32 (bits / 2 ^ 64)
    add   := BitVec.ofNat 32 (bits / 2 ^ 96) }

/-- The instruction the decoder reads from the bits `w` of an instruction, none where it rejects them. -/
def decodeTableWord (nbits w : Nat) : Option Instr :=
  match decode (Command.ofTableWord nbits w) with
  | .ok i => some i
  | .error _ => none

end Sys2Proof
end

