-- ==== Sys2Proof/Machine/State.lean ====
section
/-! DEFINITION. The machine's state as plain data: the frame buffer (10_state R20, R21), the parameter `FRAME_BYTES`, the
host's side of the interface (70_reset R170) and what the block has answered (30_encoding R66, 70_reset R171). -/

namespace Sys2Proof.Machine

/-- The frame's written bytes, as (index, byte) pairs with indices strictly rising (`Memory.wf`). An index that is not listed
holds no value of its own: nothing has written that byte since power-on (log 1, log 7). -/
abbrev Memory := List Host.Cell

/-- The status codes of 60_exceptions R140. Code 7 is reserved and never produced, so it has no constructor. -/
inductive Status where
  /-- The command completed. -/
  | ok
  /-- `L = 0` or `L > 32` (R142). -/
  | invalidLength
  /-- `o + L > 8 N` (R143). -/
  | outOfBounds
  /-- `SCALE` is +0 or -0 on ENCODE_SCALED (R148). -/
  | invalidScale
  /-- `SCALE` or `ADD` is an infinity or a NaN (R144). -/
  | nonFinite
  /-- The quotient is a NaN or outside (-1, 2^32) (R145). -/
  | conversionRange
  /-- The command word is illegal (R146). -/
  | illegalCommand
  deriving DecidableEq, Repr

/-- The one response of a command (30_encoding R66): its status and the word `RESULT`. -/
structure Response where
  status : Status
  result : Word
  deriving DecidableEq, Repr

/-- What the host can do between the steps of the block (70_reset R170). -/
inductive HostAction where
  /-- Issue a command. -/
  | command (c : Command)
  /-- Write a byte of the frame. -/
  | writeByte (index : Nat) (value : Byte)
  /-- Read a byte of the frame. -/
  | readByte (index : Nat)
  /-- The reset event. `unperformed` is a command the host had presented and the block had not yet performed, if there was
  one (70_reset R160). -/
  | reset (unperformed : Option Command)
  deriving DecidableEq, Repr

/-- The state of one instance of the block with its host. -/
structure State where
  /-- `FRAME_BYTES`, written `N` (00_scope R9): a parameter that no step changes. -/
  frameBytes : Nat
  /-- The frame buffer (10_state R21). -/
  frame      : Memory
  /-- The host's actions that have not happened yet, oldest first (70_reset R171, log 3). -/
  host       : List HostAction
  /-- The responses produced so far, oldest first (70_reset R171). -/
  responses  : List Response
  /-- The bytes the host has read so far, oldest first (70_reset R170, log 4). -/
  hostReads  : List Host.Cell
  deriving DecidableEq, Repr

/-- Why the machine stops. No command ever stops it: a failing command answers a status (60_exceptions R141). -/
inductive Fault where
  /-- The host reads or writes a byte at an index outside [0, N), which does not exist (20_memory R49, 70_reset R170). Raised
  by the host's frame accesses only. Safe: the model stops where the spec gives no effect (log 5). -/
  | hostAccessOutsideFrame (index : Nat)
  deriving DecidableEq, Repr

/-- Why an instruction has no meaning. -/
inductive Refusal where
  /-- Raised by `exec` for an instruction that is not modelled. Safe. No arm of `exec` answers it: every instruction of the
  opcode table has its meaning. -/
  | notModelled (mnemonic : String)
  deriving DecidableEq, Repr

/-- The machine at power-on, after reset (10_state R29, 70_reset R160, R161): no command in progress, no response, and a frame
whose bytes nothing has written. -/
def State.reset : State :=
  { frameBytes := Config.frameBytes, frame := [], host := [], responses := [], hostReads := [] }

end Sys2Proof.Machine
end

