-- ==== Sys2Proof/Machine/Ops.lean ====
section
/-! DEFINITION. The named operations over the frame and the response: `MemRead`, `MemWrite`, `raise` and `respond`
(00_scope R14), and the bit at a frame position (R13). Failing with a status is the block's only exception (60_exceptions
R141), and `State.raise` is the one operation that does it. There is no trap entry and no return from one (R149, R151). -/

namespace Sys2Proof.Machine

/-- The byte listed for an index, or none. -/
def Memory.lookup : Memory → Nat → Option Byte
  | [], _ => none
  | (k, v) :: m, a => if k = a then some v else Memory.lookup m a

/-- Lists a byte for an index, in the canonical order. -/
def Memory.store : Memory → Nat → Byte → Memory
  | [], a, v => [(a, v)]
  | (k, w) :: m, a, v =>
    if a < k then (a, v) :: (k, w) :: m
    else if a = k then (a, v) :: m
    else (k, w) :: Memory.store m a v

/-- The canonical form: indices strictly rising. An unlisted index holds no value, so no entry can repeat what one holds. -/
abbrev Memory.wf (m : Memory) : Prop := m.Pairwise (fun x y => x.1 < y.1)

/-- `MemRead(i, 1)` (00_scope R14): the byte at index `i`. A byte that nothing has written is the power-on draw (70_reset
R161, log 1). -/
def State.memRead (s : State) (i : Nat) : Byte :=
  (Memory.lookup s.frame i).getD (Config.powerOnByte i)

/-- `MemWrite(i, 1, v)` (00_scope R14). -/
def State.memWrite (s : State) (i : Nat) (v : Byte) : State :=
  { s with frame := Memory.store s.frame i v }

/-- The bit at frame position `p` (00_scope R13): weight `7 - p mod 8` of byte `p div 8`. -/
def State.bitAt (s : State) (p : Nat) : Bool :=
  (s.memRead (p / 8)).getLsbD (7 - p % 8)

/-- A command produces exactly one response (30_encoding R66). -/
def State.respond (s : State) (st : Status) (r : Word) : State :=
  { s with responses := s.responses ++ [{ status := st, result := r }] }

/-- `respond(OK, r)` (00_scope R14). -/
def State.respondOk (s : State) (r : Word) : State := s.respond .ok r

/-- `raise <Status>` (00_scope R14, 60_exceptions R141): the command ends with that status and a `RESULT` of 0, and writes no
frame byte. -/
def State.raise (s : State) (st : Status) : State := s.respond st 0

end Sys2Proof.Machine
end

