-- ==== Sys2Proof/Machine/Float.lean ====
section
/-! DEFINITION. binary32 (00_scope R15, 41_field_codec R110, R111, R113; 93_implementation_defined G1 to G5). A finite value
is an exact multiple of 2^-149, so each operation is computed exactly on integers and rounded once. -/

namespace Sys2Proof.Machine

/-- A binary32 value. A finite one is its sign and its magnitude, the low 31 bits of its pattern read as a number below
`0x7F800000`, so +0 and -0 differ (41 R111). A NaN has no payload: none is ever observed (log 9). -/
inductive F32 where
  | nan
  | inf (neg : Bool)
  | finite (neg : Bool) (mag : Nat)
  deriving DecidableEq, Repr

/-- The magnitude pattern of an infinity: exponent `0xFF`, fraction 0 (41 R111). -/
def F32.infMag : Nat := 0x7F800000

/-- `f32_of_bits` (00_scope R14, 41 R111): sign `w[31]`, biased exponent `w[30:23]`, fraction `w[22:0]`. -/
def F32.ofBits (w : Word) : F32 :=
  let neg := w.getLsbD 31
  let mag := (w.extractLsb' 0 31).toNat
  if mag < F32.infMag then .finite neg mag
  else if mag = F32.infMag then .inf neg
  else .nan

/-- A pattern from its sign and its magnitude. -/
def F32.pattern (neg : Bool) (mag : Nat) : Word := BitVec.ofBool neg ++ BitVec.ofNat 31 mag

/-- `f32_bits` (00_scope R14). A NaN's pattern is a free value (log 9). -/
def F32.toBits : F32 → Word
  | .nan => F32.pattern Config.nanSign (F32.infMag + (Config.nanFraction % (2 ^ 23 - 1) + 1))
  | .inf neg => F32.pattern neg F32.infMag
  | .finite neg mag => F32.pattern neg mag

/-- The value of a magnitude pattern in units of 2^-149 (93 G1): the fraction itself for a subnormal, the fraction with its
leading 1 scaled by the exponent for a normal value. -/
def F32.units (mag : Nat) : Nat :=
  if mag < 2 ^ 23 then mag else (2 ^ 23 + mag % 2 ^ 23) * 2 ^ (mag / 2 ^ 23 - 1)

/-- `2^149`, the number of units in 1. -/
def F32.one : Nat := 2 ^ 149

/-- `n / d` rounded to the nearest integer, ties to even (93 G2). -/
def F32.roundHalfEven (n d : Nat) : Nat :=
  if 2 * (n % d) < d then n / d
  else if d < 2 * (n % d) then n / d + 1
  else n / d + n / d % 2

/-- The magnitude pattern nearest to `n / d` units, ties to even (41 R110, 93 G2, G3). A subnormal or the lowest normal
binade is a multiple of 1 unit, and the k-th binade above it a multiple of 2^k. A rounding that carries into the next binade
carries into the exponent field by itself. The answer can be `infMag` or more, which `F32.round` takes for an infinity. -/
def F32.roundMag (n d : Nat) : Nat :=
  let k := Nat.log2 (n / d) - 23
  k * 2 ^ 23 + F32.roundHalfEven n (d * 2 ^ k)

/-- The binary32 value nearest to `n / d` units with a sign. A result too large is the infinity of its sign (41 R110). -/
def F32.round (neg : Bool) (n d : Nat) : F32 :=
  if F32.roundMag n d < F32.infMag then .finite neg (F32.roundMag n d) else .inf neg

/-- `is_nan(x)` (41 R110). -/
def F32.isNan : F32 → Bool
  | .nan => true
  | .inf _ | .finite _ _ => false

/-- `is_finite(x)`: false exactly for ±infinity and NaN (41 R110). -/
def F32.isFinite : F32 → Bool
  | .finite _ _ => true
  | .nan | .inf _ => false

/-- `is_zero(x)`: true exactly for +0 and -0 (41 R110). -/
def F32.isZero : F32 → Bool
  | .finite _ mag => decide (mag = 0)
  | .nan | .inf _ => false

/-- The exact value of a finite pattern in units of 2^-149, with its sign. -/
def F32.signedUnits (neg : Bool) (mag : Nat) : Int :=
  if neg then -(F32.units mag : Int) else (F32.units mag : Int)

/-- `f32_from_u32(n)` (41 R110). -/
def F32.ofNat (n : Nat) : F32 := F32.round false (n * F32.one) 1

/-- `f32_mul(a, b)` (41 R110). The sign is the exclusive-or of the signs, and 0 times an infinity is NaN (93 G3, G4). -/
def F32.mul : F32 → F32 → F32
  | .nan, _ => .nan
  | _, .nan => .nan
  | .inf a, .inf b => .inf (a ^^ b)
  | .inf a, .finite b m => if m = 0 then .nan else .inf (a ^^ b)
  | .finite a m, .inf b => if m = 0 then .nan else .inf (a ^^ b)
  | .finite a m, .finite b n => F32.round (a ^^ b) (F32.units m * F32.units n) F32.one

/-- `f32_add(a, b)` (41 R110). A sum that is exactly 0 is +0, but for two zeros of sign -, whose sum is -0 (93 G4). -/
def F32.sum : F32 → F32 → F32
  | .nan, _ => .nan
  | _, .nan => .nan
  | .inf a, .inf b => if a = b then .inf a else .nan
  | .inf a, .finite _ _ => .inf a
  | .finite _ _, .inf b => .inf b
  | .finite a m, .finite b n =>
    let t := F32.signedUnits a m + F32.signedUnits b n
    if t = 0 then .finite (a && b) 0 else F32.round (decide (t < 0)) t.natAbs 1

/-- The value with its sign turned. -/
def F32.negate : F32 → F32
  | .nan => .nan
  | .inf a => .inf (!a)
  | .finite a m => .finite (!a) m

/-- `f32_sub(a, b)` (41 R110). -/
def F32.sub (a b : F32) : F32 := F32.sum a b.negate

/-- `f32_div(a, b)` (41 R110). `0 / 0` and `inf / inf` are NaN, and a non-zero value over a zero is an infinity (93 G3). -/
def F32.div : F32 → F32 → F32
  | .nan, _ => .nan
  | _, .nan => .nan
  | .inf _, .inf _ => .nan
  | .inf a, .finite b _ => .inf (a ^^ b)
  | .finite a _, .inf b => .finite (a ^^ b) 0
  | .finite a m, .finite b n =>
    if n = 0 then (if m = 0 then .nan else .inf (a ^^ b))
    else F32.round (a ^^ b) (F32.units m * F32.one) (F32.units n)

/-- `q <= -1`, on the exact value. False for a NaN (93 G5). -/
def F32.leMinusOne : F32 → Bool
  | .nan => false
  | .inf neg => neg
  | .finite neg mag => neg && decide (F32.one ≤ F32.units mag)

/-- `q >= 2^32`, on the exact value. False for a NaN (93 G5). -/
def F32.geTwoPow32 : F32 → Bool
  | .nan => false
  | .inf neg => !neg
  | .finite neg mag => !neg && decide (2 ^ 32 * F32.one ≤ F32.units mag)

/-- `f32_trunc_u32(x)` (41 R110), for `-1 < x < 2^32`: the fractional part discarded, 0 for `-1 < x < 1`. It is used only
when the range check has passed (R113). -/
def F32.truncU32 : F32 → Word
  | .finite _ mag => BitVec.ofNat 32 (F32.units mag / F32.one)
  | .nan | .inf _ => 0

end Sys2Proof.Machine
end

