-- ==== Sys2Proof/Machine/Flags.lean ====
section
/-! DEFINITION. The block has no flags (10_state R24). What takes their place is the status of a response: its code
(60_exceptions R140), its word (30_encoding R66), and the checks that decide it (R142 to R148). -/

namespace Sys2Proof.Machine

/-- `STATUS[2:0]` (60_exceptions R140). -/
def Status.code : Status → BitVec 3
  | .ok              => 0
  | .invalidLength   => 1
  | .outOfBounds     => 2
  | .invalidScale    => 3
  | .nonFinite       => 4
  | .conversionRange => 5
  | .illegalCommand  => 6

/-- The word `STATUS` of a response: the code in its low three bits, the rest 0 (30_encoding R66). -/
def Response.statusWord (r : Response) : Word := r.status.code.setWidth 32

/-- INVALID_LENGTH's test (60_exceptions R142). -/
def lengthInvalid (len : Nat) : Bool := decide (len = 0 ∨ len > Config.maxLength)

/-- OUT_OF_BOUNDS's test, on the exact sum (60_exceptions R143). -/
def outsideFrame (off len n : Nat) : Bool := decide (off + len > 8 * n)

/-- NON_FINITE's test (60_exceptions R144). -/
def descriptorNonFinite (sc ad : F32) : Bool := !sc.isFinite || !ad.isFinite

/-- CONVERSION_RANGE's test on the quotient, NaN first (60_exceptions R145, 41_field_codec R113). -/
def quotientOutOfRange (q : F32) : Bool := q.isNan || q.leMinusOne || q.geTwoPow32

end Sys2Proof.Machine
end

