-- ==== Sys2Proof/Machine/Operands.lean ====
section
/-! DEFINITION. The block's one operand form in the frame, the bit field: its geometry (40_bit_codec R81), the masks (R94),
and reading and merging a field chunk by chunk (R88, R90). -/

namespace Sys2Proof.Machine

/-- The part of a field that lies in one byte (40 R81): byte `k`, `n_k` bits, weight index `sh_k` of its least significant bit
in the byte, and `B_k`, that bit's weight index in the value. -/
structure Chunk where
  byte  : Nat
  bits  : Nat
  shift : Nat
  base  : Nat
  deriving DecidableEq, Repr

/-- `mask(n) = 2^n - 1` on `w` bits (40 R94). -/
def mask (w n : Nat) : BitVec w := BitVec.ofNat w (2 ^ n - 1)

/-- The chunk of the field [o, e) in byte `k`, its value bits starting at `base` (40 R81). -/
def chunkAt (o e k base : Nat) : Chunk :=
  let lo := max o (8 * k)
  let hi := min e (8 * k + 8)
  { byte := k, bits := hi - lo, shift := 8 * k + 8 - hi, base := base }

/-- The chunks of `count` bytes from byte `k` on, where the earlier chunks hold `base` bits (40 R81). -/
def chunksFrom (o e : Nat) : Nat → Nat → Nat → List Chunk
  | 0, _, _ => []
  | count + 1, k, base =>
    chunkAt o e k base :: chunksFrom o e count (k + 1) (base + (chunkAt o e k base).bits)

/-- The start byte `s` (40 R81). -/
def startByte (o : Nat) : Nat := o / 8

/-- The last byte `t` (40 R81). -/
def lastByte (o len : Nat) : Nat := (o + len - 1) / 8

/-- `chunks(o, L)` (40 R81), used for `L ≥ 1` only (R80). -/
def fieldChunks (o len : Nat) : List Chunk :=
  chunksFrom o (o + len) (lastByte o len - startByte o + 1) (startByte o) 0

/-- `((b >> sh) & mask(n)) << B`: the value bits a byte of the frame holds (40 R88). -/
def Chunk.extract (c : Chunk) (b : Byte) : Word :=
  ((b >>> c.shift &&& mask 8 c.bits).setWidth 32) <<< c.base

/-- `((v >> B) & mask(n)) << sh`: the byte bits a value sets (40 R90). -/
def Chunk.place (c : Chunk) (v : Word) : Byte :=
  ((v >>> c.base &&& mask 32 c.bits).setWidth 8) <<< c.shift

/-- The field's value, the loop of DECODE_BITS (40 R88). -/
def readField (s : State) (o len : Nat) : Word :=
  (fieldChunks o len).foldl (fun acc c => acc ||| c.extract (s.memRead c.byte)) 0

/-- One step of the loop of ENCODE_BITS: the byte's old contents or the chunk's bits (40 R90). -/
def mergeChunk (v : Word) (s : State) (c : Chunk) : State :=
  s.memWrite c.byte (s.memRead c.byte ||| c.place v)

/-- `VALUE & mask(L)` merged into the field, the loop of ENCODE_BITS (40 R90). -/
def mergeField (s : State) (o len : Nat) (v : Word) : State :=
  (fieldChunks o len).foldl (mergeChunk (v &&& mask 32 len)) s

end Sys2Proof.Machine
end

