-- ==== Sys2Proof/Machine/BitCodec.lean ====
section
/-! DEFINITION. The bit codec: bit_unpacker and bit_packer (40_bit_codec R88, R90). Every check precedes the first frame access
(60_exceptions R147), and every path ends in a next state with one response. -/

namespace Sys2Proof.Machine

/-- DECODE_BITS (40 R88). -/
def execDecodeBits (o len : Nat) (s : State) : Host.Outcome State Fault Refusal :=
  .next <|
    if lengthInvalid len then s.raise .invalidLength
    else if outsideFrame o len s.frameBytes then s.raise .outOfBounds
    else s.respondOk (readField s o len)

/-- ENCODE_BITS (40 R90). -/
def execEncodeBits (o len : Nat) (v : Word) (s : State) : Host.Outcome State Fault Refusal :=
  .next <|
    if lengthInvalid len then s.raise .invalidLength
    else if outsideFrame o len s.frameBytes then s.raise .outOfBounds
    else (mergeField s o len v).respondOk 0

end Sys2Proof.Machine
end

