-- ==== Sys2Proof/Machine/FieldCodec.lean ====
section
/-! DEFINITION. The field codec: boolean fields (41_field_codec R120, R121) and scaled fields (R122, R123). Every check precedes
the first frame access (60_exceptions R147), and every path ends in a next state with one response. -/

namespace Sys2Proof.Machine

/-- DECODE_BOOL (41 R120): `(MemRead(o div 8, 1) >> (7 - o mod 8)) & 1`. -/
def execDecodeBool (o : Nat) (s : State) : Host.Outcome State Fault Refusal :=
  .next <|
    if outsideFrame o 1 s.frameBytes then s.raise .outOfBounds
    else s.respondOk ((s.memRead (o / 8) >>> (7 - o % 8) &&& 1#8).setWidth 32)

/-- ENCODE_BOOL (41 R121): `VALUE[0]` is merged into position `o`, and false changes nothing. -/
def execEncodeBool (o : Nat) (v : Bool) (s : State) : Host.Outcome State Fault Refusal :=
  .next <|
    if outsideFrame o 1 s.frameBytes then s.raise .outOfBounds
    else
      (s.memWrite (o / 8)
        (s.memRead (o / 8) ||| (BitVec.ofBool v).setWidth 8 <<< (7 - o % 8))).respondOk 0

/-- The physical value of a raw field: `raw as f32 * scale + add`, each operation rounded (41 R122). -/
def physical (raw : Word) (sc ad : F32) : F32 :=
  F32.sum (F32.mul (F32.ofNat raw.toNat) sc) ad

/-- DECODE_SCALED (41 R122). -/
def execDecodeScaled (o len : Nat) (scale add : Word) (s : State) :
    Host.Outcome State Fault Refusal :=
  .next <|
    if lengthInvalid len then s.raise .invalidLength
    else if outsideFrame o len s.frameBytes then s.raise .outOfBounds
    else if descriptorNonFinite (.ofBits scale) (.ofBits add) then s.raise .nonFinite
    else s.respondOk (physical (readField s o len) (.ofBits scale) (.ofBits add)).toBits

/-- The quotient of ENCODE_SCALED: `(value - add) / scale`, each operation rounded (41 R123). -/
def quotient (x sc ad : F32) : F32 := F32.div (F32.sub x ad) sc

/-- ENCODE_SCALED (41 R123). -/
def execEncodeScaled (o len : Nat) (v scale add : Word) (s : State) :
    Host.Outcome State Fault Refusal :=
  .next <|
    if lengthInvalid len then s.raise .invalidLength
    else if outsideFrame o len s.frameBytes then s.raise .outOfBounds
    else if descriptorNonFinite (.ofBits scale) (.ofBits add) then s.raise .nonFinite
    else if (F32.ofBits scale).isZero then s.raise .invalidScale
    else if quotientOutOfRange (quotient (.ofBits v) (.ofBits scale) (.ofBits add)) then
      s.raise .conversionRange
    else
      (mergeField s o len
        (quotient (.ofBits v) (.ofBits scale) (.ofBits add)).truncU32).respondOk 0

end Sys2Proof.Machine
end

