-- ==== Sys2Proof/Machine/Dispatch.lean ====
section
/-! DEFINITION. One arm per command of the opcode map (30_encoding R61). -/

namespace Sys2Proof.Machine

def exec (i : Instr) (s : State) : Host.Outcome State Fault Refusal :=
  match i with
  | .decodeBits o len => Sys2Proof.Machine.execDecodeBits o len s
  | .encodeBits o len v => Sys2Proof.Machine.execEncodeBits o len v s
  | .decodeBool o => Sys2Proof.Machine.execDecodeBool o s
  | .encodeBool o v => Sys2Proof.Machine.execEncodeBool o v s
  | .decodeScaled o len sc ad => Sys2Proof.Machine.execDecodeScaled o len sc ad s
  | .encodeScaled o len v sc ad => Sys2Proof.Machine.execEncodeScaled o len v sc ad s

end Sys2Proof.Machine
end

