-- ==== Sys2Proof/Machine/HostPort.lean ====
section
/-! DEFINITION. The host's side of the interface (70_reset R170): issuing a command, reading and writing the frame between
commands, and the reset event. One host action is one step. -/

namespace Sys2Proof.Machine

/-- A command word is classified before any frame access (30_encoding R68). A legal one is performed, and an illegal one
answers ILLEGAL_COMMAND (60_exceptions R146). -/
def performCommand (c : Command) (s : State) : Host.Outcome State Fault Refusal :=
  match decode c with
  | .ok i => exec i s
  | .error _ => .next (s.raise .illegalCommand)

/-- The host writes a byte in [0, N) (70_reset R170). -/
def hostWrite (i : Nat) (v : Byte) (s : State) : Host.Outcome State Fault Refusal :=
  if i < s.frameBytes then .next (s.memWrite i v) else .fault (.hostAccessOutsideFrame i)

/-- The host reads a byte in [0, N), and the block returns it (70_reset R170). A read changes no byte. -/
def hostRead (i : Nat) (s : State) : Host.Outcome State Fault Refusal :=
  if i < s.frameBytes then .next { s with hostReads := s.hostReads ++ [(i, s.memRead i)] }
  else .fault (.hostAccessOutsideFrame i)

/-- The reset event (70_reset R160): it leaves the frame, acts between commands, and discards a command that was not yet
performed with no frame write and no response. What the host was already given stays given. -/
def resetEvent (_unperformed : Option Command) (s : State) : State := s

/-- One action of the host. -/
def performAction : HostAction → State → Host.Outcome State Fault Refusal
  | .command c, s => performCommand c s
  | .writeByte i v, s => hostWrite i v s
  | .readByte i, s => hostRead i s
  | .reset u, s => .next (resetEvent u s)

/-- The host's oldest action is performed (20_memory R50). With no action left the block is idle between commands
(60_exceptions R156), and nothing changes (log 3). -/
def performNext (s : State) : Host.Outcome State Fault Refusal :=
  match s.host with
  | [] => .next s
  | a :: rest => performAction a { s with host := rest }

end Sys2Proof.Machine
end

