-- ==== Sys2Proof/Machine/Step.lean ====
section
/-! DEFINITION. One step of the machine, and the state in which the very next step performs a given command. -/

namespace Sys2Proof.Machine

/-- One step: the host's oldest action (00_scope R10, 20_memory R50). -/
def step (s : State) : Host.Outcome State Fault Refusal := performNext s

/-- The host's next action is to issue the command with these bits, as opcode_table.json numbers them. -/
def State.withFetchWord (s : State) (nbits w : Nat) : State :=
  { s with host := .command (Command.ofTableWord nbits w) :: s.host }

end Sys2Proof.Machine
end

