-- ==== Sys2Proof/Machine/Assembler.lean ====
section
/-! DEFINITION. The spec's assembler (30_encoding R71, R72): from a line's characters to its operands, and from its operands to
the words of a command. White space and the exact spelling of a decimal real are PRESUMED, safe (log 12). -/

namespace Sys2Proof.Machine

/-- The operand form of `<scale>`, `<add>` and `<fvalue>` (30 R71). -/
inductive RealLit where
  /-- `digits / 10 ^ places`, with a sign. -/
  | decimal (neg : Bool) (digits places : Nat)
  /-- `0f` and 8 hexadecimal digits: a raw pattern. -/
  | bits (w : Word)
  deriving DecidableEq, Repr

/-- One line of the assembler syntax (30 R71), its operands in the line's order. -/
inductive AsmLine where
  /-- A comment, or a line that holds nothing. -/
  | comment
  | decodeBits (offset length : Nat)
  | encodeBits (value offset length : Nat)
  | decodeBool (offset : Nat)
  | encodeBool (offset : Nat) (value : Bool)
  | decodeScaled (offset length : Nat) (scale add : RealLit)
  | encodeScaled (offset length : Nat) (scale add fvalue : RealLit)
  /-- `.cmd`: raw words. -/
  | raw (cmd value scale add : Nat)
  deriving DecidableEq, Repr

/-- What a line assembles to. -/
inductive Assembled where
  | command (c : Command)
  | nothing
  /-- The line cannot be encoded (30 R72). -/
  | rejected
  deriving DecidableEq, Repr

/-- The binary32 pattern of a real operand: a decimal is rounded to nearest, ties to even (30 R71). -/
def RealLit.word : RealLit → Word
  | .decimal neg digits places => (F32.round neg (digits * F32.one) (10 ^ places)).toBits
  | .bits w => w

/-- A number an interface word can hold. -/
def fitsWord (n : Nat) : Bool := decide (n < 2 ^ 32)

/-- The words of a command, if its `<offset>` and `<length>` fit (30 R72). -/
def assembleInstr (i : Instr) : Assembled :=
  if i.wellFormed then .command (encode i) else .rejected

/-- Assembly of a line (30 R71, R72). A `<length>` of 0 or of 33 to 255 does assemble. -/
def assemble : AsmLine → Assembled
  | .comment => .nothing
  | .decodeBits o l => assembleInstr (.decodeBits o l)
  | .encodeBits v o l =>
    if fitsWord v then assembleInstr (.encodeBits o l (BitVec.ofNat 32 v)) else .rejected
  | .decodeBool o => assembleInstr (.decodeBool o)
  | .encodeBool o b => assembleInstr (.encodeBool o b)
  | .decodeScaled o l sc ad => assembleInstr (.decodeScaled o l sc.word ad.word)
  | .encodeScaled o l sc ad x => assembleInstr (.encodeScaled o l x.word sc.word ad.word)
  | .raw c v sc ad =>
    if fitsWord c && fitsWord v && fitsWord sc && fitsWord ad then
      .command ⟨BitVec.ofNat 32 c, BitVec.ofNat 32 v, BitVec.ofNat 32 sc, BitVec.ofNat 32 ad⟩
    else .rejected

/-- A space or a tab. -/
def isBlank (c : Char) : Bool := c == ' ' || c == '\t'

/-- The characters without the blanks at either end. -/
def trimBlanks (cs : List Char) : List Char :=
  ((cs.dropWhile isBlank).reverse.dropWhile isBlank).reverse

/-- The parts between commas. -/
def splitCommas : List Char → List (List Char)
  | [] => [[]]
  | c :: cs =>
    if c = ',' then [] :: splitCommas cs
    else match splitCommas cs with
      | [] => [[c]]
      | part :: rest => (c :: part) :: rest

/-- The value of a digit in a base up to 16. -/
def digitValue (base : Nat) (c : Char) : Option Nat :=
  let v :=
    if '0' ≤ c ∧ c ≤ '9' then some (c.toNat - 48)
    else if 'a' ≤ c ∧ c ≤ 'f' then some (c.toNat - 87)
    else if 'A' ≤ c ∧ c ≤ 'F' then some (c.toNat - 55)
    else none
  v.filter (· < base)

/-- The number some digits write after `acc`, none where one is no digit. -/
def digitsFrom (base : Nat) : Nat → List Char → Option Nat
  | acc, [] => some acc
  | acc, c :: cs =>
    match digitValue base c with
    | some d => digitsFrom base (acc * base + d) cs
    | none => none

/-- One or more digits. -/
def parseDigits (base : Nat) : List Char → Option Nat
  | [] => none
  | cs => digitsFrom base 0 cs

/-- An unsigned integer in decimal or `0x` hexadecimal (30 R71). -/
def parseUInt : List Char → Option Nat
  | '0' :: 'x' :: cs => parseDigits 16 cs
  | cs => parseDigits 10 cs

/-- `true`, `false`, `1` or `0` (30 R71). -/
def parseBool : List Char → Option Bool
  | ['t', 'r', 'u', 'e'] => some true
  | ['1'] => some true
  | ['f', 'a', 'l', 's', 'e'] => some false
  | ['0'] => some false
  | _ => none

/-- The digits of a decimal real, with at most one point: what stands before it, and after it. -/
def parseDecimal (neg : Bool) (cs : List Char) : Option RealLit :=
  let whole := cs.takeWhile (· != '.')
  let rest := cs.dropWhile (· != '.')
  match rest with
  | [] => (parseDigits 10 whole).map (fun n => .decimal neg n 0)
  | _ :: frac =>
    match parseDigits 10 whole, parseDigits 10 frac with
    | some _, some _ => (parseDigits 10 (whole ++ frac)).map (fun n => .decimal neg n frac.length)
    | _, _ => none

/-- A decimal real, or `0f` and 8 hexadecimal digits (30 R71). -/
def parseReal : List Char → Option RealLit
  | '0' :: 'f' :: cs =>
    if cs.length = 8 then (parseDigits 16 cs).map (fun n => .bits (BitVec.ofNat 32 n)) else none
  | '-' :: cs => parseDecimal true cs
  | cs => parseDecimal false cs

/-- The operands of a line after its mnemonic. -/
def operandsOf (cs : List Char) : List (List Char) :=
  match trimBlanks cs with
  | [] => []
  | ds => (splitCommas ds).map trimBlanks

/-- A line from its mnemonic and its operands, none where they are not of the mnemonic's form (30 R71). -/
def lineOf (mnemonic : List Char) (ops : List (List Char)) : Option AsmLine :=
  if mnemonic = "decode_bits".toList then
    match ops with
    | [o, l] => do return .decodeBits (← parseUInt o) (← parseUInt l)
    | _ => none
  else if mnemonic = "encode_bits".toList then
    match ops with
    | [v, o, l] => do return .encodeBits (← parseUInt v) (← parseUInt o) (← parseUInt l)
    | _ => none
  else if mnemonic = "decode_bool".toList then
    match ops with
    | [o] => do return .decodeBool (← parseUInt o)
    | _ => none
  else if mnemonic = "encode_bool".toList then
    match ops with
    | [o, b] => do return .encodeBool (← parseUInt o) (← parseBool b)
    | _ => none
  else if mnemonic = "decode_scaled".toList then
    match ops with
    | [o, l, sc, ad] => do
      return .decodeScaled (← parseUInt o) (← parseUInt l) (← parseReal sc) (← parseReal ad)
    | _ => none
  else if mnemonic = "encode_scaled".toList then
    match ops with
    | [o, l, sc, ad, x] => do
      return .encodeScaled (← parseUInt o) (← parseUInt l) (← parseReal sc) (← parseReal ad)
        (← parseReal x)
    | _ => none
  else if mnemonic = ".cmd".toList then
    match ops with
    | [c] => do return .raw (← parseUInt c) 0 0 0
    | [c, v] => do return .raw (← parseUInt c) (← parseUInt v) 0 0
    | [c, v, sc] => do return .raw (← parseUInt c) (← parseUInt v) (← parseUInt sc) 0
    | [c, v, sc, ad] => do
      return .raw (← parseUInt c) (← parseUInt v) (← parseUInt sc) (← parseUInt ad)
    | _ => none
  else none

/-- One line of text (30 R71). -/
def parseLine (cs : List Char) : Option AsmLine :=
  match trimBlanks cs with
  | [] => some .comment
  | '#' :: _ => some .comment
  | ds => lineOf (ds.takeWhile (!isBlank ·)) (operandsOf (ds.dropWhile (!isBlank ·)))

/-- The words a line of text assembles to. A line of no form is rejected. -/
def assembleLine (cs : List Char) : Assembled :=
  match parseLine cs with
  | some line => assemble line
  | none => .rejected

end Sys2Proof.Machine
end

