-- ==== Sys2Proof/Safety.lean ====
section
/-! DEFINITION. The terms the statements use: what a well-formed state is, which fields are legal, the bit mapping of a field in
closed form (40_bit_codec R82), the source's own step list (R83), the first error that applies to a command (60_exceptions
R147), and the observation of a run (70_reset R171). Nothing here gives an instruction its meaning. -/

namespace Sys2Proof.Machine

/-- A frame whose bytes all exist and stand in canonical form, host reads that took existing bytes, and responses that carry a
result only with status OK (20_memory R49, 10_state R21, 30_encoding R67). -/
abbrev State.wf (s : State) : Prop :=
  s.frame.wf ∧ (∀ c ∈ s.frame, c.1 < s.frameBytes) ∧ (∀ c ∈ s.hostReads, c.1 < s.frameBytes) ∧
    (∀ r ∈ s.responses, r.status ≠ .ok → r.result = 0)

/-- The length and bounds checks pass (40 R80; 60_exceptions R142, R143). -/
abbrev fieldLegal (o len n : Nat) : Prop := 1 ≤ len ∧ len ≤ 32 ∧ o + len ≤ 8 * n

/-- Position `p` belongs to the field (20_memory R40). -/
abbrev inField (o len p : Nat) : Prop := o ≤ p ∧ p < o + len

/-- `w(p) = B_k + (hi_k - 1 - p)` for a position of the field in byte `k = p div 8` (40 R82). The earlier chunks hold the
positions from `o` to `8 k`, so `B_k = 8 k - o`, which is 0 in the start byte. -/
def valueBit (o len p : Nat) : Nat :=
  (8 * (p / 8) - o) + (min (o + len) (8 * (p / 8) + 8) - 1 - p)

/-- A binary32 value that is a pattern: a finite magnitude lies below that of an infinity (41_field_codec R111). -/
def F32.valid : F32 → Bool
  | .finite _ mag => decide (mag < F32.infMag)
  | .nan | .inf _ => true

/-- The sign of a value that is not a NaN (41_field_codec R111). -/
def F32.sign : F32 → Bool
  | .finite neg _ => neg
  | .inf neg => neg
  | .nan => false

/-- The exact value of a finite binary32 value (93_implementation_defined G1). -/
def F32.toRat : F32 → ℚ
  | .finite neg mag => (F32.signedUnits neg mag : ℚ) / 2 ^ 149
  | .nan | .inf _ => 0

/-- `y` is what the exact number `x` rounds to, to nearest with ties to even (41_field_codec R110, 93 G2, G3): no finite value
is nearer than a finite `y`, one as near shows that the last fraction bit of `y` is 0, and `y` is the infinity of the sign of
`x` exactly from the midpoint above the largest finite value, which is `(2^25 - 1) * 2^103`. -/
def roundsTo (x : ℚ) : F32 → Prop
  | .nan => False
  | .inf neg => (2 ^ 25 - 1) * 2 ^ 103 ≤ |x| ∧ (neg = true ↔ x < 0)
  | .finite neg mag =>
    |x| < (2 ^ 25 - 1) * 2 ^ 103 ∧ mag < F32.infMag ∧
      ∀ neg' mag', mag' < F32.infMag →
        |(F32.finite neg mag).toRat - x| ≤ |(F32.finite neg' mag').toRat - x| ∧
        (|(F32.finite neg mag).toRat - x| = |(F32.finite neg' mag').toRat - x| →
          (F32.finite neg' mag').toRat ≠ (F32.finite neg mag).toRat → mag % 2 = 0)

/-- Two states whose frames hold the same bytes. -/
def sameFrame (s t : State) : Prop := ∀ i, s.memRead i = t.memRead i

/-- The source's middle step (40 R83): whole bytes from `k` on, each at the bits read so far. -/
def sourceMiddle (s : State) : Nat → Nat → Nat → Word → Word
  | 0, _, _, acc => acc
  | count + 1, k, bitsRead, acc =>
    sourceMiddle s count (k + 1) (bitsRead + 8) (acc ||| (s.memRead k).setWidth 32 <<< bitsRead)

/-- The source's step list for a field that spans more than one byte (40 R83): the first byte under `start_mask`, the whole
bytes strictly between the start byte and `E div 8`, and the top `used_bits` bits of byte `E div 8`. -/
def sourceField (s : State) (o len : Nat) : Word :=
  let start := o / 8
  let stop := (o + len) / 8
  let used := (o + len) % 8
  let first := (s.memRead start &&& (0xFF#8 >>> (o % 8))).setWidth 32
  let middle := sourceMiddle s (stop - (start + 1)) (start + 1) (8 - o % 8) first
  let bitsRead := (8 - o % 8) + 8 * (stop - (start + 1))
  if used = 0 then middle
  else
    middle |||
      ((s.memRead stop &&& ~~~(0xFF#8 >>> used)) >>> (8 - used)).setWidth 32 <<< bitsRead

/-- The errors a command can have after decoding, in the order of 60_exceptions R147, each with its test (R142 to R148). -/
def commandErrors (n : Nat) : Instr → List (Status × Bool)
  | .decodeBits o len =>
    [(.invalidLength, decide (len = 0 ∨ len > 32)), (.outOfBounds, decide (o + len > 8 * n))]
  | .encodeBits o len _ =>
    [(.invalidLength, decide (len = 0 ∨ len > 32)), (.outOfBounds, decide (o + len > 8 * n))]
  | .decodeBool o => [(.outOfBounds, decide (o + 1 > 8 * n))]
  | .encodeBool o _ => [(.outOfBounds, decide (o + 1 > 8 * n))]
  | .decodeScaled o len sc ad =>
    [(.invalidLength, decide (len = 0 ∨ len > 32)), (.outOfBounds, decide (o + len > 8 * n)),
     (.nonFinite, !(F32.ofBits sc).isFinite || !(F32.ofBits ad).isFinite)]
  | .encodeScaled o len v sc ad =>
    [(.invalidLength, decide (len = 0 ∨ len > 32)), (.outOfBounds, decide (o + len > 8 * n)),
     (.nonFinite, !(F32.ofBits sc).isFinite || !(F32.ofBits ad).isFinite),
     (.invalidScale, (F32.ofBits sc).isZero),
     (.conversionRange,
      let q := quotient (.ofBits v) (.ofBits sc) (.ofBits ad)
      q.isNan || q.leMinusOne || q.geTwoPow32)]

/-- The first error of a list that applies, or OK (60_exceptions R147). -/
def firstError : List (Status × Bool) → Status
  | [] => .ok
  | (st, applies) :: rest => if applies then st else firstError rest

/-- The action is a command. -/
def HostAction.isCommand : HostAction → Bool
  | .command _ => true
  | .writeByte _ _ | .readByte _ | .reset _ => false

/-- The action keeps the host's contract: it touches only bytes that exist (70_reset R170). -/
def HostAction.allowed (n : Nat) : HostAction → Bool
  | .writeByte i _ => decide (i < n)
  | .readByte i => decide (i < n)
  | .command _ | .reset _ => true

/-- What a run shows (70_reset R171): the responses in order, and the frame. -/
structure Observation where
  responses : List Response
  frame     : List Byte
  deriving DecidableEq, Repr

/-- The observation of a state (70_reset R171). -/
def State.observe (s : State) : Observation :=
  { responses := s.responses, frame := (List.range s.frameBytes).map s.memRead }

end Sys2Proof.Machine
end

