-- ==== Sys2Proof/Certificates/Slice0/Obligations.lean ====
section
/-! DEFINITION. The statements for the provers, each from the spec's numbered rules. Every one of them ranges over every state,
so over every `FRAME_BYTES` and every frame, and over every form of the commands it names. -/

open Sys2Proof Sys2Proof.Machine

/-! ### Reset, the host's actions and the whole machine -/

/-- 10_state R29 and 70_reset R160, R161: no action, response or host read is pending after reset, and each byte is the power-on
draw. The parameter and the draw are opaque constants (log 1, log 2), and the empty lists are the model's form (log 3, log 4). -/
def Obligations.ResetLeavesNothingPending : Prop :=
  State.reset.host = [] ∧ State.reset.responses = [] ∧ State.reset.hostReads = [] ∧
    State.reset.frameBytes = Config.frameBytes ∧
    ∀ i, State.reset.memRead i = Config.powerOnByte i

/-- The invariant of `StepKeepsWellFormedness` holds at reset. Its canonical form is the model's choice (log 7), and so is its list
of host reads (log 4). -/
def Obligations.ResetIsWellFormed : Prop := State.reset.wf

/-- 20_memory R49, 10_state R21, 30_encoding R67: a step lists only bytes of the frame that exist, and answers a result with status
OK only. The other two clauses are the model's choice: the canonical form that a step keeps (log 7), and the list of host reads,
which holds only bytes that exist (log 4, and log 5 for the accesses that stop). -/
def Obligations.StepKeepsWellFormedness : Prop :=
  ∀ s t : State, s.wf → step s = .next t → t.wf

/-- 70_reset R162 and R171: a step keeps `FRAME_BYTES` and every response that was there, and takes the oldest host action. That
the host's actions are a list, and that a step with none left takes none, is the model's choice (log 3), and so is keeping the
bytes the host has read (log 4). -/
def Obligations.StepKeepsParameterAndHistory : Prop :=
  ∀ s t : State, step s = .next t →
    t.frameBytes = s.frameBytes ∧ t.host = s.host.tail ∧ s.responses <+: t.responses ∧
      s.hostReads <+: t.hostReads

/-- 70_reset R160: a reset event leaves the frame, a command not yet performed is discarded with no frame write and no response, and
the next command is accepted. That the event carries that command, and that the responses, the host reads and the later actions
stay, is the model's reading (log 15, DEDUCED). -/
def Obligations.ResetEventDiscardsAndChangesNothing : Prop :=
  ∀ (s : State) (u : Option Command) (rest : List HostAction), s.host = .reset u :: rest →
    step s = .next { s with host := rest } ∧
    ∀ c more, rest = .command c :: more →
      step { s with host := rest } = performCommand c { s with host := more }

/-- The model's choice (log 3): with no host action left, a step changes nothing. 60_exceptions R156 calls the block idle between
commands. -/
def Obligations.IdleStepChangesNothing : Prop :=
  ∀ s : State, s.host = [] → step s = .next s

/-- 30_encoding R68, 20_memory R50: a step performs the oldest command by running the decoded instruction on the state without that
action. That the commands to come are a list with the oldest at its head is the model's choice (log 3), and so is the second
clause: `withFetchWord` stands for the host issuing a command (log 3), numbered as `decodeTableWord` numbers it (log 11). -/
def Obligations.StepPerformsDecodedCommand : Prop :=
  (∀ (s : State) (c : Command) (i : Instr) (rest : List HostAction),
    s.host = .command c :: rest → decode c = .ok i → step s = exec i { s with host := rest }) ∧
  (∀ (s : State) (nbits w : Nat) (i : Instr),
    decodeTableWord nbits w = some i → step (s.withFetchWord nbits w) = exec i s)

/-- 70_reset R170: the host writes and reads one byte of the frame between commands, and nothing else changes. The list that keeps
the byte a read returns is the model's choice (log 4). -/
def Obligations.HostAccessesOneExistingByte : Prop :=
  (∀ (s : State) (i : Nat) (v : Byte) (rest : List HostAction),
    s.host = .writeByte i v :: rest → i < s.frameBytes →
    ∃ t, step s = .next t ∧ t.frameBytes = s.frameBytes ∧ t.host = rest ∧
      t.responses = s.responses ∧ t.hostReads = s.hostReads ∧ t.memRead i = v ∧
      ∀ j, j ≠ i → t.memRead j = s.memRead j) ∧
  (∀ (s : State) (i : Nat) (rest : List HostAction),
    s.host = .readByte i :: rest → i < s.frameBytes →
    step s = .next { s with host := rest, hostReads := s.hostReads ++ [(i, s.memRead i)] })

/-- The model's choice (log 5): a host access to a byte that does not exist (20_memory R49) stops by name. -/
def Obligations.HostAccessOutsideFrameStops : Prop :=
  ∀ (s : State) (i : Nat) (v : Byte) (rest : List HostAction), s.frameBytes ≤ i →
    (s.host = .writeByte i v :: rest → step s = .fault (.hostAccessOutsideFrame i)) ∧
    (s.host = .readByte i :: rest → step s = .fault (.hostAccessOutsideFrame i))

/-- 60_exceptions R140 and 30_encoding R66: the seven codes, of which OK is 0. Each command produces exactly one response,
`STATUS[2:0]` is its status code, at most 6, and `STATUS[31:3]` is 0. -/
def Obligations.EveryCommandGetsOneResponse : Prop :=
  Status.ok.code = 0 ∧ Status.invalidLength.code = 1 ∧ Status.outOfBounds.code = 2 ∧
  Status.invalidScale.code = 3 ∧ Status.nonFinite.code = 4 ∧ Status.conversionRange.code = 5 ∧
  Status.illegalCommand.code = 6 ∧
  ∀ (s : State) (c : Command) (rest : List HostAction), s.host = .command c :: rest →
    ∃ t r, step s = .next t ∧ t.host = rest ∧ t.responses = s.responses ++ [r] ∧
      r.statusWord.extractLsb' 0 3 = r.status.code ∧ r.statusWord.extractLsb' 3 29 = 0 ∧
      r.status.code.toNat ≤ 6

/-- 70_reset R171: a run of host actions that keep the host's contract ends, with one response for each command, in order after
the responses that were there. The list of actions is the model's choice (log 3). -/
def Obligations.RunOfHostActionsEnds : Prop :=
  ∀ s : State, (∀ a ∈ s.host, a.allowed s.frameBytes = true) →
    ∃ t, core.run s.host.length s = .next t ∧ t.host = [] ∧ s.responses <+: t.responses ∧
      t.responses.length = s.responses.length + s.host.countP HostAction.isCommand

/-- 10_state R20, R22, R24: nothing but the frame and `FRAME_BYTES` decides what a command does. Two states that agree on both
get the same response and the same frame, whatever was answered before. -/
def Obligations.CommandDependsOnFrameOnly : Prop :=
  ∀ (s t : State) (i : Instr), s.frameBytes = t.frameBytes → sameFrame s t →
    ∃ s' t' r, exec i s = .next s' ∧ exec i t = .next t' ∧ sameFrame s' t' ∧
      s'.responses = s.responses ++ [r] ∧ t'.responses = t.responses ++ [r]

/-- 70_reset R163, R165: no command clears a bit of the frame. -/
def Obligations.NoCommandClearsABit : Prop :=
  ∀ (s t : State) (i : Instr) (p : Nat), exec i s = .next t → s.bitAt p = true →
    t.bitAt p = true

/-! ### Encoding -/

/-- 30_encoding R60 to R65, R68, R72: decoding the words of a well-formed command gives it back, with every operand at every
value the encoding admits. -/
def Obligations.DecodeEncodeAgree : Prop :=
  ∀ i : Instr, i.wellFormed = true → decode (encode i) = .ok i

/-- 30_encoding R60, R72: `CMD = (L << 16) | (o << 8) | OP`, with `L = 0` for the BOOL commands. -/
def Obligations.EncodedCommandWord : Prop :=
  ∀ i : Instr, i.wellFormed = true →
    (encode i).cmd.toNat = i.lengthNumber * 2 ^ 16 + i.offset * 2 ^ 8 + i.opcode.bits.toNat

/-- opcode_table.json against the decoder of 30_encoding R68: the decoder accepts exactly the words a row covers, names that
row's operation, and no word belongs to two rows. -/
def Obligations.DecoderAcceptsExactlyTheTable : Prop :=
  (∀ c i, decode c = .ok i → ∃ r ∈ opcodeTable, r.covers c.cmd = true ∧ r.op = i.opcode) ∧
  (∀ c e, decode c = .error e → ∀ r ∈ opcodeTable, r.covers c.cmd = false) ∧
  (∀ w : Word, ∀ r ∈ opcodeTable, ∀ q ∈ opcodeTable,
    r.covers w = true → q.covers w = true → r = q)

/-- 30_encoding R73: the rule's encoding examples, from the line's text to the words, and what the words decode to. -/
def Obligations.EncodingExamples : Prop :=
  assembleLine "encode_bits 600, 14, 10".toList = .command ⟨0x000A0E01, 0x00000258, 0, 0⟩ ∧
  decode ⟨0x000A0E01, 0x00000258, 0, 0⟩ = .ok (.encodeBits 14 10 600) ∧
  assembleLine "decode_bits 14, 10".toList = .command ⟨0x000A0E00, 0, 0, 0⟩ ∧
  decode ⟨0x000A0E00, 0, 0, 0⟩ = .ok (.decodeBits 14 10) ∧
  assembleLine "encode_bool 13, true".toList = .command ⟨0x00000D03, 0x00000001, 0, 0⟩ ∧
  decode ⟨0x00000D03, 0x00000001, 0, 0⟩ = .ok (.encodeBool 13 true) ∧
  assembleLine "decode_scaled 14, 10, 0.05, -10".toList =
    .command ⟨0x000A0E04, 0, 0x3D4CCCCD, 0xC1200000⟩ ∧
  decode ⟨0x000A0E04, 0, 0x3D4CCCCD, 0xC1200000⟩ =
    .ok (.decodeScaled 14 10 0x3D4CCCCD 0xC1200000) ∧
  assembleLine "encode_bits 7, 0, 33".toList = .command ⟨0x00210001, 7, 0, 0⟩ ∧
  (∀ s, performCommand ⟨0x00210001, 7, 0, 0⟩ s = .next (s.raise .invalidLength)) ∧
  (∀ v sc ad s, performCommand ⟨0x00000006, v, sc, ad⟩ s = .next (s.raise .illegalCommand))

/-- 60_exceptions R146: a command word is answered with ILLEGAL_COMMAND, code 6, exactly when `OP` is 6 or 7, a reserved field is
not 0, or a BOOL opcode has a `LENGTH` that is not 0. -/
def Obligations.IllegalWordsGetIllegalCommand : Prop :=
  Status.illegalCommand.code = 6 ∧
  ∀ (s : State) (c : Command) (rest : List HostAction), s.host = .command c :: rest →
    (c.op = 6 ∨ c.op = 7 ∨ c.rsv0 ≠ 0 ∨ c.rsv1 ≠ 0 ∨ ((c.op = 2 ∨ c.op = 3) ∧ c.lengthField ≠ 0) →
      step s = .next (State.raise { s with host := rest } .illegalCommand)) ∧
    (¬ (c.op = 6 ∨ c.op = 7 ∨ c.rsv0 ≠ 0 ∨ c.rsv1 ≠ 0 ∨
        ((c.op = 2 ∨ c.op = 3) ∧ c.lengthField ≠ 0)) →
      ∃ t r, step s = .next t ∧ t.responses = s.responses ++ [r] ∧ r.status ≠ .illegalCommand)

/-- 30_encoding R64: two commands that differ only in operand words, or bits of them, that their opcode ignores do the same. -/
def Obligations.IgnoredOperandWordsHaveNoEffect : Prop :=
  ∀ (s : State) (c d : Command), c.cmd = d.cmd →
    (c.op = 1 ∨ c.op = 5 → c.value = d.value) →
    (c.op = 3 → c.value.getLsbD 0 = d.value.getLsbD 0) →
    (c.op = 4 ∨ c.op = 5 → c.scale = d.scale ∧ c.add = d.add) →
    performCommand c s = performCommand d s

/-- 30_encoding R71, R72: each line form assembles to words that decode to the line's command when its `<offset>` and `<length>`
fit in 8 bits, with every operand word the command ignores 0, and is rejected otherwise. A `.cmd` line presents its words as they
are, a word that is left out being 0, and a `# text` line presents nothing. A decimal real is rounded to nearest even, and `0f`
gives the pattern itself. That a number too large for a word rejects the line, and how digits are read from text (`parseUInt`), is
the model's choice (log 12, PRESUMED). -/
def Obligations.AssembledLineDecodes : Prop :=
  let ok (line : AsmLine) (i : Instr) (v sc ad : Word) : Prop :=
    ∃ c, assemble line = .command c ∧ decode c = .ok i ∧ c.value = v ∧ c.scale = sc ∧ c.add = ad
  (∀ o l, if o < 256 ∧ l < 256 then ok (.decodeBits o l) (.decodeBits o l) 0 0 0
    else assemble (.decodeBits o l) = .rejected) ∧
  (∀ v o l, if v < 2 ^ 32 ∧ o < 256 ∧ l < 256 then
      ok (.encodeBits v o l) (.encodeBits o l (BitVec.ofNat 32 v)) (BitVec.ofNat 32 v) 0 0
    else assemble (.encodeBits v o l) = .rejected) ∧
  (∀ o, if o < 256 then ok (.decodeBool o) (.decodeBool o) 0 0 0
    else assemble (.decodeBool o) = .rejected) ∧
  (∀ o b, if o < 256 then ok (.encodeBool o b) (.encodeBool o b) (if b then 1 else 0) 0 0
    else assemble (.encodeBool o b) = .rejected) ∧
  (∀ o l sc ad, if o < 256 ∧ l < 256 then
      ok (.decodeScaled o l sc ad) (.decodeScaled o l sc.word ad.word) 0 sc.word ad.word
    else assemble (.decodeScaled o l sc ad) = .rejected) ∧
  (∀ o l sc ad x, if o < 256 ∧ l < 256 then
      ok (.encodeScaled o l sc ad x) (.encodeScaled o l x.word sc.word ad.word)
        x.word sc.word ad.word
    else assemble (.encodeScaled o l sc ad x) = .rejected) ∧
  (∀ c v sc ad, if c < 2 ^ 32 ∧ v < 2 ^ 32 ∧ sc < 2 ^ 32 ∧ ad < 2 ^ 32 then
      assemble (.raw c v sc ad) = .command ⟨BitVec.ofNat 32 c, BitVec.ofNat 32 v,
        BitVec.ofNat 32 sc, BitVec.ofNat 32 ad⟩
    else assemble (.raw c v sc ad) = .rejected) ∧
  (∀ tc tv ts ta c v sc ad, parseUInt tc = some c → parseUInt tv = some v →
    parseUInt ts = some sc → parseUInt ta = some ad →
    lineOf ".cmd".toList [tc] = some (.raw c 0 0 0) ∧
    lineOf ".cmd".toList [tc, tv] = some (.raw c v 0 0) ∧
    lineOf ".cmd".toList [tc, tv, ts] = some (.raw c v sc 0) ∧
    lineOf ".cmd".toList [tc, tv, ts, ta] = some (.raw c v sc ad)) ∧
  (∀ text, assembleLine ("# ".toList ++ text) = .nothing) ∧
  (∀ (neg : Bool) (digits places : Nat),
    roundsTo ((if neg then -1 else 1) * ((digits : ℚ) / 10 ^ places))
      (F32.ofBits (RealLit.decimal neg digits places).word)) ∧
  ∀ w, (RealLit.bits w).word = w

/-! ### Field geometry -/

/-- 40_bit_codec R81, R87: the chunks of a field hold its `L` bits, the first at value bit 0, there are
`((o mod 8) + L + 7) div 8` of them, 1 to 5 for a legal length, and each holds 1 to 8 bits inside its byte. -/
def Obligations.ChunksPartitionTheField : Prop :=
  ∀ o len : Nat, 1 ≤ len →
    ((fieldChunks o len).map Chunk.bits).sum = len ∧
    (fieldChunks o len).head?.map Chunk.base = some 0 ∧
    (fieldChunks o len).length = (o % 8 + len + 7) / 8 ∧
    (len ≤ 32 → 1 ≤ (fieldChunks o len).length ∧ (fieldChunks o len).length ≤ 5) ∧
    ∀ c ∈ fieldChunks o len, 1 ≤ c.bits ∧ c.bits ≤ 8 ∧ c.shift + c.bits ≤ 8

/-- 40_bit_codec R80 and 00_scope R9: every byte a legal field touches exists, and no command can reach a byte of index 36 or
above. -/
def Obligations.FieldTouchesExistingBytesOnly : Prop :=
  ∀ o len n : Nat, fieldLegal o len n → ∀ c ∈ fieldChunks o len,
    c.byte < n ∧ (o < 256 → c.byte < 36)

/-- 40_bit_codec R82: bit `sh + j` of byte `k` is bit `B + j` of the value for every chunk, which is the closed form `w(p)` at the
position of that bit, and `w` is a bijection between the positions of the field and the value bits below `L`. -/
def Obligations.BitMappingIsABijection : Prop :=
  ∀ o len : Nat, 1 ≤ len →
    (∀ c ∈ fieldChunks o len, ∀ j < c.bits,
      inField o len (8 * c.byte + (7 - (c.shift + j))) ∧
      valueBit o len (8 * c.byte + (7 - (c.shift + j))) = c.base + j) ∧
    Set.BijOn (valueBit o len) { p | inField o len p } { i | i < len }

/-! ### The bit codec -/

/-- 40_bit_codec R82, R88, R89: on a legal field DECODE_BITS completes, changes nothing but the list of responses, and answers the
value whose bit `w(p)` is the frame's bit at each position `p` of the field, a value below `2^L`. -/
def Obligations.DecodeBitsReturnsTheField : Prop :=
  ∀ (s : State) (o len : Nat), fieldLegal o len s.frameBytes →
    ∃ r, exec (.decodeBits o len) s = .next (s.respondOk r) ∧
      (∀ p, inField o len p → r.getLsbD (valueBit o len p) = s.bitAt p) ∧ r.toNat < 2 ^ len

/-- 40_bit_codec R84: a field inside one byte reads as `(frame[s] >> (8 - (o mod 8) - L)) & mask(L)`. -/
def Obligations.DecodeBitsInsideOneByte : Prop :=
  ∀ (s : State) (o len : Nat), fieldLegal o len s.frameBytes → o / 8 = (o + len - 1) / 8 →
    exec (.decodeBits o len) s =
      .next (s.respondOk
        ((s.memRead (o / 8) >>> (8 - o % 8 - len) &&& mask 8 len).setWidth 32))

/-- 40_bit_codec R86, 20_memory R41: a byte-aligned field of whole bytes reads as a little-endian integer of its bytes. -/
def Obligations.DecodeBitsByteAlignedIsLittleEndian : Prop :=
  ∀ (s : State) (a b : Nat), 1 ≤ b → b ≤ 4 → a + b ≤ s.frameBytes →
    ∃ r, exec (.decodeBits (8 * a) (8 * b)) s = .next (s.respondOk r) ∧
      r.toNat = ((List.range b).map fun j => (s.memRead (a + j)).toNat * 2 ^ (8 * j)).sum

/-- 40_bit_codec R83: for a field that spans more than one byte, DECODE_BITS answers what the source's step list computes: the
first byte under its mask, the whole middle bytes, and the top bits of the last byte. -/
def Obligations.SourceStepListGivesTheField : Prop :=
  ∀ (s : State) (o len : Nat), fieldLegal o len s.frameBytes → o / 8 < (o + len - 1) / 8 →
    exec (.decodeBits o len) s = .next (s.respondOk (sourceField s o len))

/-- 40_bit_codec R88, R93: a decode command's response depends on the bits at the field's positions only, never on other bits of
the same bytes. -/
def Obligations.DecodeDependsOnFieldBitsOnly : Prop :=
  (∀ (s t : State) (o len : Nat), s.frameBytes = t.frameBytes →
    (∀ p, inField o len p → s.bitAt p = t.bitAt p) →
    ∃ st r, exec (.decodeBits o len) s = .next (s.respond st r) ∧
      exec (.decodeBits o len) t = .next (t.respond st r)) ∧
  (∀ (s t : State) (o : Nat), s.frameBytes = t.frameBytes → s.bitAt o = t.bitAt o →
    ∃ st r, exec (.decodeBool o) s = .next (s.respond st r) ∧
      exec (.decodeBool o) t = .next (t.respond st r)) ∧
  (∀ (s t : State) (o len : Nat) (sc ad : Word), s.frameBytes = t.frameBytes →
    (∀ p, inField o len p → s.bitAt p = t.bitAt p) →
    ∃ st r, exec (.decodeScaled o len sc ad) s = .next (s.respond st r) ∧
      exec (.decodeScaled o len sc ad) t = .next (t.respond st r))

/-- The frame of DECODE_BITS, DECODE_BOOL and DECODE_SCALED (20_memory R47, 40 R89): whenever one of them answers a next state, on
an error path too, only one response is added. -/
def Obligations.DecodeCommandsFrame : Prop :=
  ∀ (s t : State) (o len : Nat) (sc ad : Word),
    exec (.decodeBits o len) s = .next t ∨ exec (.decodeBool o) s = .next t ∨
      exec (.decodeScaled o len sc ad) s = .next t →
    ∃ r, t = { s with responses := s.responses ++ [r] }

/-- 40_bit_codec R82, R90: on a legal field ENCODE_BITS completes with `RESULT` 0, and every position of the frame holds its old
bit, with the value's bit added by OR at the positions of the field. -/
def Obligations.EncodeBitsMergesTheField : Prop :=
  ∀ (s : State) (o len : Nat) (v : Word), fieldLegal o len s.frameBytes →
    ∃ t, exec (.encodeBits o len v) s = .next t ∧
      t.responses = s.responses ++ [{ status := .ok, result := 0 }] ∧
      t.frameBytes = s.frameBytes ∧ t.host = s.host ∧ t.hostReads = s.hostReads ∧
      ∀ p, t.bitAt p =
        (s.bitAt p || (decide (inField o len p) && v.getLsbD (valueBit o len p)))

/-- The frame of ENCODE_BITS, ENCODE_BOOL and ENCODE_SCALED (20_memory R40, R47, 40 R93): whenever one of them answers a next
state, only one response is added, and every byte that is not a byte of the field's chunks, the bytes the command stores to,
reads as before. -/
def Obligations.EncodeCommandsFrame : Prop :=
  ∀ (s t : State) (o len : Nat) (v sc ad : Word) (b : Bool),
    (exec (.encodeBits o len v) s = .next t ∨ exec (.encodeScaled o len v sc ad) s = .next t →
      ∀ k, (∀ c ∈ fieldChunks o len, c.byte ≠ k) → t.memRead k = s.memRead k) ∧
    (exec (.encodeBool o b) s = .next t → ∀ k, k ≠ o / 8 → t.memRead k = s.memRead k) ∧
    (exec (.encodeBits o len v) s = .next t ∨ exec (.encodeScaled o len v sc ad) s = .next t ∨
        exec (.encodeBool o b) s = .next t →
      t.frameBytes = s.frameBytes ∧ t.host = s.host ∧ t.hostReads = s.hostReads ∧
        ∃ r, t.responses = s.responses ++ [r])

/-- 40_bit_codec R91: DECODE_BITS after an ENCODE_BITS of the same field answers the old value OR the low `L` bits of `VALUE`. -/
def Obligations.MergeLaw : Prop :=
  ∀ (s : State) (o len : Nat) (v : Word), fieldLegal o len s.frameBytes →
    ∃ d t, exec (.decodeBits o len) s = .next (s.respondOk d) ∧
      exec (.encodeBits o len v) s = .next t ∧
      exec (.decodeBits o len) t = .next (t.respondOk (d ||| (v &&& mask 32 len)))

/-- 40_bit_codec R92: a value below `2^L` encoded into a field whose positions are 0 is what decoding the field then answers. -/
def Obligations.EncodeDecodeRoundTrip : Prop :=
  ∀ (s : State) (o len : Nat) (v : Word), fieldLegal o len s.frameBytes → v.toNat < 2 ^ len →
    (∀ p, inField o len p → s.bitAt p = false) →
    ∃ t, exec (.encodeBits o len v) s = .next t ∧
      exec (.decodeBits o len) t = .next (t.respondOk v)

/-- 20_memory R48: the same ENCODE command issued twice in a row leaves the same frame as issuing it once. -/
def Obligations.EncodeIsIdempotent : Prop :=
  ∀ (s t : State) (o len : Nat) (v sc ad : Word) (b : Bool) (i : Instr),
    i = .encodeBits o len v ∨ i = .encodeBool o b ∨ i = .encodeScaled o len v sc ad →
    exec i s = .next t → ∃ u, exec i t = .next u ∧ sameFrame u t

/-- 40_bit_codec R93: an ENCODE_BITS leaves every byte outside `s .. t` and every bit outside the field, and a DECODE of a
disjoint field answers the same before and after. -/
def Obligations.EncodeLeavesDisjointFields : Prop :=
  ∀ (s t : State) (o len o' len' : Nat) (v : Word), exec (.encodeBits o len v) s = .next t →
    (∀ k, k < o / 8 ∨ (o + len - 1) / 8 < k → t.memRead k = s.memRead k) ∧
    (∀ p, ¬ inField o len p → t.bitAt p = s.bitAt p) ∧
    ((∀ p, inField o len p → ¬ inField o' len' p) →
      (∃ st r, exec (.decodeBits o' len') s = .next (s.respond st r) ∧
        exec (.decodeBits o' len') t = .next (t.respond st r)) ∧
      (∀ sc ad, ∃ st r, exec (.decodeScaled o' len' sc ad) s = .next (s.respond st r) ∧
        exec (.decodeScaled o' len' sc ad) t = .next (t.respond st r))) ∧
    (¬ inField o len o' → ∃ st r, exec (.decodeBool o') s = .next (s.respond st r) ∧
      exec (.decodeBool o') t = .next (t.respond st r))

/-- 70_reset R166, 92_eei_decisions D12: ENCODE_BITS keeps only `VALUE[L-1:0]`, with the status it would have had. -/
def Obligations.EncodeBitsKeepsLowBitsOnly : Prop :=
  ∀ (s : State) (o len : Nat) (v : Word),
    exec (.encodeBits o len v) s = exec (.encodeBits o len (v &&& mask 32 len)) s

/-! ### The field codec -/

/-- 41_field_codec R120: DECODE_BOOL completes for every position of the frame, answers 1 or 0 for the bit at `o`, and does what
DECODE_BITS does at `(o, 1)`. -/
def Obligations.DecodeBoolReadsThePosition : Prop :=
  ∀ (s : State) (o : Nat), o < 8 * s.frameBytes →
    exec (.decodeBool o) s = .next (s.respondOk (if s.bitAt o then 1 else 0)) ∧
    exec (.decodeBool o) s = exec (.decodeBits o 1) s

/-- 41_field_codec R121: ENCODE_BOOL completes for every position of the frame, and sets at most the bit at `o`. Encoding false
changes nothing. -/
def Obligations.EncodeBoolSetsThePosition : Prop :=
  ∀ (s : State) (o : Nat) (b : Bool), o < 8 * s.frameBytes →
    ∃ t, exec (.encodeBool o b) s = .next t ∧
      t.responses = s.responses ++ [{ status := .ok, result := 0 }] ∧
      (∀ p, t.bitAt p = (s.bitAt p || (decide (p = o) && b))) ∧
      (b = false → sameFrame t s)

/-- 41_field_codec R126: an ENCODE_BOOL at `o` changes only position `o`, and decoding a field that does not contain `o` answers
the same before and after. The same holds for an ENCODE_SCALED next to a boolean field. -/
def Obligations.BooleanFieldIndependence : Prop :=
  (∀ (s t : State) (o o' len' : Nat) (b : Bool), exec (.encodeBool o b) s = .next t →
    (∀ p, p ≠ o → t.bitAt p = s.bitAt p) ∧
    (¬ inField o' len' o →
      (∃ st r, exec (.decodeBits o' len') s = .next (s.respond st r) ∧
        exec (.decodeBits o' len') t = .next (t.respond st r)) ∧
      (∀ sc ad, ∃ st r, exec (.decodeScaled o' len' sc ad) s = .next (s.respond st r) ∧
        exec (.decodeScaled o' len' sc ad) t = .next (t.respond st r)))) ∧
  (∀ (s t : State) (o len o' : Nat) (v sc ad : Word),
    exec (.encodeScaled o len v sc ad) s = .next t → ¬ inField o len o' →
    t.bitAt o' = s.bitAt o' ∧
    ∃ st r, exec (.decodeBool o') s = .next (s.respond st r) ∧
      exec (.decodeBool o') t = .next (t.respond st r))

/-- 41_field_codec R122: on a legal field with finite `SCALE` and `ADD`, DECODE_SCALED completes and answers the pattern of
`raw as f32 * scale + add`, where `raw` is what DECODE_BITS answers on the same field. -/
def Obligations.DecodeScaledComputesThePhysicalValue : Prop :=
  ∀ (s : State) (o len : Nat) (sc ad : Word), fieldLegal o len s.frameBytes →
    (F32.ofBits sc).isFinite = true → (F32.ofBits ad).isFinite = true →
    ∃ raw, exec (.decodeBits o len) s = .next (s.respondOk raw) ∧
      exec (.decodeScaled o len sc ad) s = .next (s.respondOk
        (F32.sum (F32.mul (F32.ofNat raw.toNat) (.ofBits sc)) (.ofBits ad)).toBits)

/-- 41_field_codec R111, R122: no response of DECODE_SCALED carries a NaN. -/
def Obligations.DecodeScaledNeverAnswersNaN : Prop :=
  ∀ (s : State) (o len : Nat) (sc ad : Word),
    ∃ st r, exec (.decodeScaled o len sc ad) s = .next (s.respond st r) ∧
      (F32.ofBits r).isNan = false

/-- 41_field_codec R122, 60_exceptions R148, 90_conflicts C8: a zero scale of either sign is legal on decode, and the answer is
numerically equal to `add`. -/
def Obligations.ZeroScaleDecodesToAdd : Prop :=
  ∀ (s : State) (o len : Nat) (sc ad : Word), fieldLegal o len s.frameBytes →
    (F32.ofBits sc).isZero = true → (F32.ofBits ad).isFinite = true →
    ∃ r, exec (.decodeScaled o len sc ad) s = .next (s.respondOk r) ∧
      (F32.ofBits r).isFinite = true ∧ (F32.ofBits r).toRat = (F32.ofBits ad).toRat

/-- 41_field_codec R123: when every check passes, ENCODE_SCALED completes as ENCODE_BITS of the truncated quotient
`(value - add) / scale` does on the same field. -/
def Obligations.EncodeScaledStoresTheTruncatedQuotient : Prop :=
  ∀ (s : State) (o len : Nat) (v sc ad : Word), fieldLegal o len s.frameBytes →
    (F32.ofBits sc).isFinite = true → (F32.ofBits ad).isFinite = true →
    (F32.ofBits sc).isZero = false →
    quotientOutOfRange (F32.div (F32.sub (.ofBits v) (.ofBits ad)) (.ofBits sc)) = false →
    ∃ t, exec (.encodeScaled o len v sc ad) s = .next t ∧
      exec (.encodeBits o len
        (F32.div (F32.sub (.ofBits v) (.ofBits ad)) (.ofBits sc)).truncU32) s = .next t ∧
      t.responses = s.responses ++ [{ status := .ok, result := 0 }]

/-- 41_field_codec R113: the quotients that are converted are exactly the finite ones with `-1 < q < 2^32`, on the exact value.
Any other fails with CONVERSION_RANGE and no frame write. -/
def Obligations.ConvertsExactlyTheQuotientsInRange : Prop :=
  (∀ q : F32, quotientOutOfRange q = false ↔ q.isFinite = true ∧ -1 < q.toRat ∧ q.toRat < 2 ^ 32) ∧
  ∀ (s : State) (o len : Nat) (v sc ad : Word), fieldLegal o len s.frameBytes →
    (F32.ofBits sc).isFinite = true → (F32.ofBits ad).isFinite = true →
    (F32.ofBits sc).isZero = false →
    (exec (.encodeScaled o len v sc ad) s = .next (s.raise .conversionRange) ↔
      quotientOutOfRange (F32.div (F32.sub (.ofBits v) (.ofBits ad)) (.ofBits sc)) = true)

/-- 41_field_codec R110, R123, R124: the conversion discards the fraction, toward zero, and never rounds to nearest. -/
def Obligations.TruncationDiscardsTheFraction : Prop :=
  ∀ q : F32, q.isFinite = true → -1 < q.toRat → q.toRat < 2 ^ 32 →
    (q.toRat < 0 → q.truncU32 = 0) ∧
    (0 ≤ q.toRat → (q.truncU32.toNat : ℚ) ≤ q.toRat ∧ q.toRat < q.truncU32.toNat + 1)

/-- 41_field_codec R125: with offset 14, length 10, scale 0.05 and add -10, encoding 2.81 into zeroed positions and decoding
answers 2.8000002, which is within one step of 2.81 and below it. -/
def Obligations.ScaledRoundTripExample : Prop :=
  (∀ s : State, fieldLegal 14 10 s.frameBytes → (∀ p, inField 14 10 p → s.bitAt p = false) →
    ∃ t, exec (.encodeScaled 14 10 0x4033D70A 0x3D4CCCCD 0xC1200000) s = .next t ∧
      exec (.decodeScaled 14 10 0x3D4CCCCD 0xC1200000) t = .next (t.respondOk 0x40333334)) ∧
  (F32.ofBits 0x40333334).toRat < 2.81 ∧ 2.81 - (F32.ofBits 0x40333334).toRat < 0.05

/-! ### binary32 -/

/-- 41_field_codec R110, 93_implementation_defined G2, G3: a product, a sum, a difference and a quotient of finite values, and the
conversion of a `u32`, is the exact result rounded once to nearest, ties to even, with subnormals kept and overflow to the
infinity of its sign. -/
def Obligations.OperationsRoundToNearestEven : Prop :=
  (∀ a b : F32, a.isFinite = true → b.isFinite = true →
    roundsTo (a.toRat * b.toRat) (F32.mul a b) ∧ roundsTo (a.toRat + b.toRat) (F32.sum a b) ∧
    roundsTo (a.toRat - b.toRat) (F32.sub a b) ∧
    (b.isZero = false → roundsTo (a.toRat / b.toRat) (F32.div a b))) ∧
  (∀ n : Nat, n < 2 ^ 32 → roundsTo (n : ℚ) (F32.ofNat n))

/-- 41_field_codec R110: the conversion of an unsigned integer is exact up to `2^24`. -/
def Obligations.SmallIntegersConvertExactly : Prop :=
  ∀ n : Nat, n ≤ 2 ^ 24 → (F32.ofNat n).isFinite = true ∧ (F32.ofNat n).toRat = n

/-- 41_field_codec R110, 93_implementation_defined G4: a product or quotient of finite values carries the exclusive-or of the
signs, zeros included, and a sum that is exactly 0 is +0 unless both are -0. -/
def Obligations.SignsOfZerosAndResults : Prop :=
  ∀ a b : F32, a.isFinite = true → b.isFinite = true →
    (F32.mul a b).sign = (a.sign ^^ b.sign) ∧
    (b.isZero = false → (F32.div a b).sign = (a.sign ^^ b.sign)) ∧
    (a.toRat + b.toRat = 0 → F32.sum a b = .finite (a.sign && b.sign && a.isZero && b.isZero) 0)

/-- 93_implementation_defined G3: an operation with a NaN operand is a NaN, and so are `inf - inf` and `0 / 0`. 41_field_codec R122,
R123 and 92_eei_decisions D29: an infinity and a finite value have an infinite sum, difference and quotient, with the signs of
binary32 (G4 for the quotient), and a finite value that is not 0 over a zero is an infinity (G3). -/
def Obligations.NanOperandsAndInvalidOperations : Prop :=
  (∀ a : F32, F32.sum .nan a = .nan ∧ F32.sum a .nan = .nan ∧ F32.sub .nan a = .nan ∧
    F32.sub a .nan = .nan ∧ F32.div .nan a = .nan ∧ F32.div a .nan = .nan ∧
    F32.mul .nan a = .nan ∧ F32.mul a .nan = .nan) ∧
  (∀ x, F32.sub (.inf x) (.inf x) = .nan ∧ F32.sum (.inf x) (.inf (!x)) = .nan) ∧
  (∀ x y, F32.div (.finite x 0) (.finite y 0) = .nan) ∧
  (∀ x a, a.isFinite = true →
    F32.sum (.inf x) a = .inf x ∧ F32.sum a (.inf x) = .inf x ∧
    F32.sub (.inf x) a = .inf x ∧ F32.sub a (.inf x) = .inf (!x) ∧
    F32.div (.inf x) a = .inf (x ^^ a.sign)) ∧
  (∀ a b, a.isFinite = true → a.isZero = false → b.isZero = true →
    F32.div a b = .inf (a.sign ^^ b.sign))

/-- 00_scope R14: `f32_of_bits` and `f32_bits` are inverse on every pattern that is not a NaN. -/
def Obligations.BitsOfPatternAgree : Prop :=
  ∀ w : Word, (F32.ofBits w).isNan = false → (F32.ofBits w).toBits = w

/-- 41_field_codec R111, 93_implementation_defined G1: what value a word has, from its sign `w[31]`, its biased exponent `w[30:23]`
and its fraction `w[22:0]`. Exponent `0xFF` is an infinity or, with a fraction that is not 0, a NaN. Exponent 0 is a zero or a
subnormal. -/
def Obligations.WordFieldsGiveTheValue : Prop :=
  ∀ w : Word,
    let x := F32.ofBits w
    let e := (w.extractLsb' 23 8).toNat
    let f := (w.extractLsb' 0 23).toNat
    (x.isFinite = false ↔ e = 0xFF) ∧
    (x.isNan = true ↔ e = 0xFF ∧ f ≠ 0) ∧
    (x.isZero = true ↔ e = 0 ∧ f = 0) ∧
    (x.isNan = false → x.sign = w.getLsbD 31) ∧
    (x.isFinite = true → x.toRat = (if w.getLsbD 31 then -1 else 1) *
      (if e = 0 then 2 ^ (-126 : ℤ) * ((f : ℚ) / 2 ^ 23)
        else 2 ^ ((e : ℤ) - 127) * (1 + (f : ℚ) / 2 ^ 23)))

/-! ### Errors -/

/-- 60_exceptions R147: the status of a command is the first error that applies in the rule's order, each check only when the
earlier ones passed, and no error writes the frame. -/
def Obligations.StatusIsTheFirstErrorInOrder : Prop :=
  ∀ (s : State) (c : Command) (rest : List HostAction), s.host = .command c :: rest →
    ∃ t r, step s = .next t ∧ t.responses = s.responses ++ [r] ∧
      r.status = (match decode c with
        | .error _ => .illegalCommand
        | .ok i => firstError (commandErrors s.frameBytes i)) ∧
      (r.status ≠ .ok → t.frame = s.frame)

/-- 60_exceptions R141: a command that fails, an illegal one included, adds its response with `RESULT` 0 and changes nothing
else, and the next command does what it would have done had the failing one not been issued. -/
def Obligations.FailingCommandChangesNothingElse : Prop :=
  ∀ (s t : State) (c : Command) (rest : List HostAction) (r : Response),
    s.host = .command c :: rest → step s = .next t →
    t.responses = s.responses ++ [r] → r.status ≠ .ok →
    r.result = 0 ∧ t = { s with host := rest, responses := s.responses ++ [r] } ∧
    ∀ d, ∃ u u' q, performCommand d t = .next u ∧
      performCommand d { s with host := rest } = .next u' ∧ sameFrame u u' ∧
      u.responses = t.responses ++ [q] ∧ u'.responses = s.responses ++ [q]

/-- 30_encoding R67: what `RESULT` is by opcode, when the status is OK and when it is not. -/
def Obligations.ResultByOpcode : Prop :=
  (∀ (s t : State) (i : Instr) (r : Response), exec i s = .next t →
    t.responses = s.responses ++ [r] → r.status ≠ .ok → r.result = 0) ∧
  (∀ (s t : State) (o len : Nat) (r : Response), exec (.decodeBits o len) s = .next t →
    t.responses = s.responses ++ [r] → r.status = .ok → r.result.toNat < 2 ^ len) ∧
  (∀ (s t : State) (o : Nat) (r : Response), exec (.decodeBool o) s = .next t →
    t.responses = s.responses ++ [r] → r.status = .ok →
    r.result = if s.bitAt o then 0x00000001 else 0x00000000) ∧
  (∀ (s t : State) (o len : Nat) (v sc ad : Word) (b : Bool) (r : Response),
    exec (.encodeBits o len v) s = .next t ∨ exec (.encodeBool o b) s = .next t ∨
      exec (.encodeScaled o len v sc ad) s = .next t →
    t.responses = s.responses ++ [r] → r.result = 0)

/-- 60_exceptions R142: a length of 0 or above 32 is answered with INVALID_LENGTH, code 1, by each of the four opcodes that carry
a length, whatever the offset and the other operands. -/
def Obligations.BadLengthIsInvalidLength : Prop :=
  Status.invalidLength.code = 1 ∧
  ∀ (s : State) (o len : Nat) (v sc ad : Word), len = 0 ∨ 32 < len →
    exec (.decodeBits o len) s = .next (s.raise .invalidLength) ∧
    exec (.encodeBits o len v) s = .next (s.raise .invalidLength) ∧
    exec (.decodeScaled o len sc ad) s = .next (s.raise .invalidLength) ∧
    exec (.encodeScaled o len v sc ad) s = .next (s.raise .invalidLength)

/-- 60_exceptions R143: with a legal length, each of the six opcodes answers OUT_OF_BOUNDS, code 2, with nothing changed but the
list of responses, exactly when its field ends past bit `8 N` on the exact sum. A BOOL field has length 1. -/
def Obligations.FieldPastTheEndIsOutOfBounds : Prop :=
  Status.outOfBounds.code = 2 ∧
  ∀ (s : State) (o len : Nat) (v sc ad : Word) (b : Bool), 1 ≤ len → len ≤ 32 →
    (exec (.decodeBits o len) s = .next (s.raise .outOfBounds) ↔ 8 * s.frameBytes < o + len) ∧
    (exec (.encodeBits o len v) s = .next (s.raise .outOfBounds) ↔ 8 * s.frameBytes < o + len) ∧
    (exec (.decodeScaled o len sc ad) s = .next (s.raise .outOfBounds) ↔
      8 * s.frameBytes < o + len) ∧
    (exec (.encodeScaled o len v sc ad) s = .next (s.raise .outOfBounds) ↔
      8 * s.frameBytes < o + len) ∧
    (exec (.decodeBool o) s = .next (s.raise .outOfBounds) ↔ 8 * s.frameBytes < o + 1) ∧
    (exec (.encodeBool o b) s = .next (s.raise .outOfBounds) ↔ 8 * s.frameBytes < o + 1)

/-- 60_exceptions R144, 41_field_codec R112: on a legal field an infinite or NaN `SCALE` or `ADD` is answered with NON_FINITE,
code 4, by both scaled opcodes. -/
def Obligations.NonFiniteDescriptorIsNonFinite : Prop :=
  Status.nonFinite.code = 4 ∧
  ∀ (s : State) (o len : Nat) (v sc ad : Word), fieldLegal o len s.frameBytes →
    (F32.ofBits sc).isFinite = false ∨ (F32.ofBits ad).isFinite = false →
    exec (.decodeScaled o len sc ad) s = .next (s.raise .nonFinite) ∧
    exec (.encodeScaled o len v sc ad) s = .next (s.raise .nonFinite)

/-- 60_exceptions R148: a zero scale, +0 and -0 alike, is answered with INVALID_SCALE, code 3, on ENCODE_SCALED, and never on
DECODE_SCALED. -/
def Obligations.ZeroScaleIsInvalidOnEncodeOnly : Prop :=
  Status.invalidScale.code = 3 ∧ (F32.ofBits 0x00000000).isZero = true ∧
  (F32.ofBits 0x80000000).isZero = true ∧
  (∀ (s : State) (o len : Nat) (sc ad : Word),
    exec (.decodeScaled o len sc ad) s ≠ .next (s.raise .invalidScale)) ∧
  ∀ (s : State) (o len : Nat) (v sc ad : Word), fieldLegal o len s.frameBytes →
    (F32.ofBits sc).isZero = true → (F32.ofBits ad).isFinite = true →
    exec (.encodeScaled o len v sc ad) s = .next (s.raise .invalidScale) ∧
    ∃ r, exec (.decodeScaled o len sc ad) s = .next (s.respondOk r)

/-- 60_exceptions R145: in ENCODE_SCALED a quotient that is a NaN, or `q <= -1`, or `q >= 2^32`, is answered with
CONVERSION_RANGE, code 5. An infinite or NaN `VALUE` always gives such a quotient (41_field_codec R123). -/
def Obligations.QuotientOutOfRangeIsConversionRange : Prop :=
  Status.conversionRange.code = 5 ∧
  ∀ (s : State) (o len : Nat) (v sc ad : Word), fieldLegal o len s.frameBytes →
    (F32.ofBits sc).isFinite = true → (F32.ofBits ad).isFinite = true →
    (F32.ofBits sc).isZero = false →
    (F32.ofBits v).isFinite = false ∨
      (F32.div (F32.sub (.ofBits v) (.ofBits ad)) (.ofBits sc)).isNan = true ∨
      (F32.div (F32.sub (.ofBits v) (.ofBits ad)) (.ofBits sc)).leMinusOne = true ∨
      (F32.div (F32.sub (.ofBits v) (.ofBits ad)) (.ofBits sc)).geTwoPow32 = true →
    exec (.encodeScaled o len v sc ad) s = .next (s.raise .conversionRange)
end

