-- ==== Sys2Proof/Laws/Assembler.lean ====
section
/-! SUPPORT. The assembler's checks as propositions, what assembling an instruction gives, and how a comment line is read. -/

namespace Sys2Proof.Machine

@[simp] theorem fitsField_eq_true {n : Nat} : fitsField n = true ↔ n < 256 := by
  simp [fitsField]

@[simp] theorem fitsWord_eq_true {n : Nat} : fitsWord n = true ↔ n < 2 ^ 32 := by
  simp [fitsWord]

/-- An instruction that can be encoded assembles to its words (30 R72). -/
theorem assembleInstr_wellFormed {i : Instr} (h : i.wellFormed = true) :
    assembleInstr i = .command (encode i) := by
  simp [assembleInstr, h]

/-- An instruction that cannot be encoded is rejected (30 R72). -/
theorem assembleInstr_illFormed {i : Instr} (h : ¬ i.wellFormed = true) :
    assembleInstr i = .rejected := by
  simp [assembleInstr, h]

/-- Trimming keeps a first character that is no blank. -/
theorem trimBlanks_cons {c : Char} (hc : isBlank c = false) (cs : List Char) :
    ∃ ds, trimBlanks (c :: cs) = c :: ds := by
  have hend : ∀ l : List Char, ∃ q, (l ++ [c]).dropWhile isBlank = q ++ [c] := by
    intro l
    induction l with
    | nil => exact ⟨[], by simp [hc]⟩
    | cons a l ih =>
      rw [List.cons_append, List.dropWhile_cons]
      split
      · exact ih
      · exact ⟨a :: l, rfl⟩
  obtain ⟨q, hq⟩ := hend cs.reverse
  refine ⟨q.reverse, ?_⟩
  rw [trimBlanks, List.dropWhile_cons_of_neg (by simp [hc]), List.reverse_cons, hq]
  simp

end Sys2Proof.Machine
end

