-- ==== Sys2Proof/Laws/State.lean ====
section
/-! SUPPORT. One lemma per field per update of the state, each true by `rfl`, so that no proof unfolds a record update. -/

namespace Sys2Proof.Machine

@[simp] theorem memWrite_frameBytes (s : State) (i : Nat) (v : Byte) :
    (s.memWrite i v).frameBytes = s.frameBytes := rfl
@[simp] theorem memWrite_frame (s : State) (i : Nat) (v : Byte) :
    (s.memWrite i v).frame = Memory.store s.frame i v := rfl
@[simp] theorem memWrite_host (s : State) (i : Nat) (v : Byte) :
    (s.memWrite i v).host = s.host := rfl
@[simp] theorem memWrite_responses (s : State) (i : Nat) (v : Byte) :
    (s.memWrite i v).responses = s.responses := rfl
@[simp] theorem memWrite_hostReads (s : State) (i : Nat) (v : Byte) :
    (s.memWrite i v).hostReads = s.hostReads := rfl

@[simp] theorem respond_frameBytes (s : State) (st : Status) (r : Word) :
    (s.respond st r).frameBytes = s.frameBytes := rfl
@[simp] theorem respond_frame (s : State) (st : Status) (r : Word) :
    (s.respond st r).frame = s.frame := rfl
@[simp] theorem respond_host (s : State) (st : Status) (r : Word) :
    (s.respond st r).host = s.host := rfl
@[simp] theorem respond_responses (s : State) (st : Status) (r : Word) :
    (s.respond st r).responses = s.responses ++ [{ status := st, result := r }] := rfl
@[simp] theorem respond_hostReads (s : State) (st : Status) (r : Word) :
    (s.respond st r).hostReads = s.hostReads := rfl
@[simp] theorem respond_memRead (s : State) (st : Status) (r : Word) (i : Nat) :
    (s.respond st r).memRead i = s.memRead i := rfl
@[simp] theorem respond_bitAt (s : State) (st : Status) (r : Word) (p : Nat) :
    (s.respond st r).bitAt p = s.bitAt p := rfl

@[simp] theorem respondOk_frameBytes (s : State) (r : Word) :
    (s.respondOk r).frameBytes = s.frameBytes := rfl
@[simp] theorem respondOk_frame (s : State) (r : Word) : (s.respondOk r).frame = s.frame := rfl
@[simp] theorem respondOk_host (s : State) (r : Word) : (s.respondOk r).host = s.host := rfl
@[simp] theorem respondOk_responses (s : State) (r : Word) :
    (s.respondOk r).responses = s.responses ++ [{ status := .ok, result := r }] := rfl
@[simp] theorem respondOk_hostReads (s : State) (r : Word) :
    (s.respondOk r).hostReads = s.hostReads := rfl
@[simp] theorem respondOk_memRead (s : State) (r : Word) (i : Nat) :
    (s.respondOk r).memRead i = s.memRead i := rfl
@[simp] theorem respondOk_bitAt (s : State) (r : Word) (p : Nat) :
    (s.respondOk r).bitAt p = s.bitAt p := rfl

@[simp] theorem raise_frameBytes (s : State) (st : Status) :
    (s.raise st).frameBytes = s.frameBytes := rfl
@[simp] theorem raise_frame (s : State) (st : Status) : (s.raise st).frame = s.frame := rfl
@[simp] theorem raise_host (s : State) (st : Status) : (s.raise st).host = s.host := rfl
@[simp] theorem raise_responses (s : State) (st : Status) :
    (s.raise st).responses = s.responses ++ [{ status := st, result := 0 }] := rfl
@[simp] theorem raise_hostReads (s : State) (st : Status) :
    (s.raise st).hostReads = s.hostReads := rfl
@[simp] theorem raise_memRead (s : State) (st : Status) (i : Nat) :
    (s.raise st).memRead i = s.memRead i := rfl
@[simp] theorem raise_bitAt (s : State) (st : Status) (p : Nat) :
    (s.raise st).bitAt p = s.bitAt p := rfl

@[simp] theorem withFetchWord_frameBytes (s : State) (nbits w : Nat) :
    (s.withFetchWord nbits w).frameBytes = s.frameBytes := rfl
@[simp] theorem withFetchWord_frame (s : State) (nbits w : Nat) :
    (s.withFetchWord nbits w).frame = s.frame := rfl
@[simp] theorem withFetchWord_host (s : State) (nbits w : Nat) :
    (s.withFetchWord nbits w).host = .command (Command.ofTableWord nbits w) :: s.host := rfl
@[simp] theorem withFetchWord_responses (s : State) (nbits w : Nat) :
    (s.withFetchWord nbits w).responses = s.responses := rfl
@[simp] theorem withFetchWord_hostReads (s : State) (nbits w : Nat) :
    (s.withFetchWord nbits w).hostReads = s.hostReads := rfl

end Sys2Proof.Machine
end

