-- ==== Sys2Proof/Laws/Memory.lean ====
section
/-! SUPPORT. The laws of the frame's memory: a read after a write, the canonical form, and equal contents are equal data. -/

namespace Sys2Proof.Machine

@[simp] theorem lookup_store_same (m : Memory) (a : Nat) (v : Byte) :
    Memory.lookup (Memory.store m a v) a = some v := by
  induction m with
  | nil => simp [Memory.store, Memory.lookup]
  | cons e m ih =>
    obtain ⟨k, w⟩ := e
    simp only [Memory.store]
    split
    · simp [Memory.lookup]
    · split
      · simp [Memory.lookup]
      · rename_i h
        simp [Memory.lookup, Ne.symm h, ih]

theorem lookup_store_ne (m : Memory) {a b : Nat} (v : Byte) (h : b ≠ a) :
    Memory.lookup (Memory.store m a v) b = Memory.lookup m b := by
  induction m with
  | nil => simp [Memory.store, Memory.lookup, Ne.symm h]
  | cons e m ih =>
    obtain ⟨k, w⟩ := e
    simp only [Memory.store]
    split
    · simp [Memory.lookup, Ne.symm h]
    · split
      · rename_i hk
        simp [Memory.lookup, ← hk, Ne.symm h]
      · simp [Memory.lookup, ih]

/-- The indices a store lists: the old ones and its own. -/
theorem mem_store {m : Memory} {a : Nat} {v : Byte} {e : Host.Cell} (h : e ∈ Memory.store m a v) :
    e = (a, v) ∨ e ∈ m := by
  induction m with
  | nil => simpa [Memory.store] using h
  | cons f m ih =>
    obtain ⟨k, w⟩ := f
    simp only [Memory.store] at h
    split at h
    · simpa using h
    · split at h
      · simp only [List.mem_cons] at h ⊢
        tauto
      · simp only [List.mem_cons] at h ⊢
        rcases h with h | h
        · exact .inr (.inl h)
        · exact (ih h).imp id .inr

/-- Every memory operation keeps the canonical form: reading changes nothing, and this is writing. -/
theorem store_wf {m : Memory} (a : Nat) (v : Byte) (h : m.wf) : (Memory.store m a v).wf := by
  induction m with
  | nil => simp [Memory.store, Memory.wf]
  | cons e m ih =>
    obtain ⟨k, w⟩ := e
    simp only [Memory.wf, List.pairwise_cons] at h
    simp only [Memory.store]
    split
    · rename_i hk
      simp only [Memory.wf, List.pairwise_cons, List.mem_cons, forall_eq_or_imp]
      exact ⟨⟨hk, fun x hx => lt_trans hk (h.1 x hx)⟩, h.1, h.2⟩
    · split
      · rename_i hk
        subst hk
        simpa [Memory.wf] using h
      · simp only [Memory.wf, List.pairwise_cons]
        refine ⟨fun x hx => ?_, ih h.2⟩
        rcases mem_store hx with rfl | hx
        · simp only; omega
        · exact h.1 x hx

theorem lookup_eq_none_of_lt {m : Memory} {a : Nat} (h : ∀ e ∈ m, a < e.1) :
    Memory.lookup m a = none := by
  induction m with
  | nil => rfl
  | cons e m ih =>
    have h1 := h e (by simp)
    simp only [Memory.lookup, ih fun x hx => h x (by simp [hx])]
    simp; omega

/-- Memories in canonical form with equal contents are equal data. -/
theorem memory_ext {m n : Memory} (hm : m.wf) (hn : n.wf)
    (h : ∀ a, Memory.lookup m a = Memory.lookup n a) : m = n := by
  induction m generalizing n with
  | nil =>
    cases n with
    | nil => rfl
    | cons e n => simpa [Memory.lookup] using h e.1
  | cons e m ih =>
    obtain ⟨k, v⟩ := e
    simp only [Memory.wf, List.pairwise_cons] at hm
    cases n with
    | nil => simpa [Memory.lookup] using h k
    | cons f n =>
      obtain ⟨l, w⟩ := f
      simp only [Memory.wf, List.pairwise_cons] at hn
      have hkl : k = l := by
        rcases lt_trichotomy k l with hlt | heq | hgt
        · have := h k
          rw [lookup_eq_none_of_lt (m := (l, w) :: n) (a := k)] at this
          · simp [Memory.lookup] at this
          · simp only [List.mem_cons, forall_eq_or_imp]
            exact ⟨hlt, fun x hx => lt_trans hlt (hn.1 x hx)⟩
        · exact heq
        · have := h l
          rw [lookup_eq_none_of_lt (m := (k, v) :: m) (a := l)] at this
          · simp [Memory.lookup] at this
          · simp only [List.mem_cons, forall_eq_or_imp]
            exact ⟨hgt, fun x hx => lt_trans hgt (hm.1 x hx)⟩
      subst hkl
      have hvw : v = w := by simpa [Memory.lookup] using h k
      subst hvw
      congr 1
      refine ih hm.2 hn.2 fun a => ?_
      by_cases ha : k = a
      · subst ha
        rw [lookup_eq_none_of_lt hm.1, lookup_eq_none_of_lt hn.1]
      · simpa [Memory.lookup, ha] using h a

/-- A read after a write to the same byte gives the byte written. -/
@[simp] theorem memRead_memWrite_same (s : State) (i : Nat) (v : Byte) :
    (s.memWrite i v).memRead i = v := by
  simp [State.memRead]

/-- A write leaves every other byte alone. -/
theorem memRead_memWrite_ne (s : State) {i j : Nat} (v : Byte) (h : j ≠ i) :
    (s.memWrite i v).memRead j = s.memRead j := by
  simp [State.memRead, lookup_store_ne _ _ h]

theorem memRead_memWrite (s : State) (i j : Nat) (v : Byte) :
    (s.memWrite i v).memRead j = if j = i then v else s.memRead j := by
  split
  · rename_i h; subst h; simp
  · rename_i h; exact memRead_memWrite_ne s v h

/-- States with the same frame read the same bytes. -/
theorem memRead_congr {s t : State} (h : s.frame = t.frame) (i : Nat) :
    s.memRead i = t.memRead i := by
  simp [State.memRead, h]

theorem bitAt_congr {s t : State} (h : ∀ i, s.memRead i = t.memRead i) (p : Nat) :
    s.bitAt p = t.bitAt p := by
  simp [State.bitAt, h]

end Sys2Proof.Machine
end

