-- ==== Sys2Proof/Laws/Field.lean ====
section
/-! SUPPORT. What reading and merging a field do, bit by bit (40_bit_codec R82): the lemmas that the statements about the bit
codec and the field codec rest on. -/

namespace Sys2Proof.Machine

/-! ### Masks and chunks -/

/-- Bit `i` of `mask(n)` (40 R94). -/
@[simp] theorem getLsbD_mask (w n i : Nat) :
    (mask w n).getLsbD i = (decide (i < w) && decide (i < n)) := by
  simp [mask, BitVec.getLsbD_ofNat, Nat.testBit_two_pow_sub_one]

/-- The bits a chunk gives to the value (40 R82, R88). -/
theorem getLsbD_extract (c : Chunk) (b : Byte) (i : Nat) :
    (c.extract b).getLsbD i =
      (decide (i < 32) && decide (c.base ≤ i) && decide (i - c.base < c.bits) &&
        b.getLsbD (c.shift + (i - c.base))) := by
  unfold Chunk.extract
  rw [BitVec.getLsbD_shiftLeft, BitVec.getLsbD_setWidth, BitVec.getLsbD_and,
    BitVec.getLsbD_ushiftRight, getLsbD_mask]
  by_cases h1 : i < 32
  · by_cases h2 : c.base ≤ i
    · by_cases h3 : i - c.base < 8
      · have h4 : i - c.base < 32 := by omega
        simp [h1, h2, h3, h4, Bool.and_comm]
      · have h4 : b.getLsbD (c.shift + (i - c.base)) = false :=
          BitVec.getLsbD_of_ge _ _ (by omega)
        simp [h4]
    · simp [h2, Nat.lt_of_not_le h2]
  · simp [h1]

theorem getLsbD_extract_iff (c : Chunk) (b : Byte) (i : Nat) :
    (c.extract b).getLsbD i = true ↔
      i < 32 ∧ c.base ≤ i ∧ i - c.base < c.bits ∧ b.getLsbD (c.shift + (i - c.base)) = true := by
  rw [getLsbD_extract]
  simp [and_assoc]

/-- The bits a chunk sets in its byte (40 R82, R90). -/
theorem getLsbD_place (c : Chunk) (v : Word) (i : Nat) :
    (c.place v).getLsbD i =
      (decide (i < 8) && decide (c.shift ≤ i) && decide (i - c.shift < c.bits) &&
        v.getLsbD (c.base + (i - c.shift))) := by
  unfold Chunk.place
  rw [BitVec.getLsbD_shiftLeft, BitVec.getLsbD_setWidth, BitVec.getLsbD_and,
    BitVec.getLsbD_ushiftRight, getLsbD_mask]
  by_cases h1 : i < 8
  · by_cases h2 : c.shift ≤ i
    · have h3 : i - c.shift < 8 := by omega
      have h4 : i - c.shift < 32 := by omega
      simp [h1, h2, h3, h4, Bool.and_comm]
    · simp [h2, Nat.lt_of_not_le h2]
  · simp [h1]

theorem getLsbD_place_iff (c : Chunk) (v : Word) (i : Nat) :
    (c.place v).getLsbD i = true ↔
      i < 8 ∧ c.shift ≤ i ∧ i - c.shift < c.bits ∧ v.getLsbD (c.base + (i - c.shift)) = true := by
  rw [getLsbD_place]
  simp [and_assoc]

theorem chunksFrom_eq (o e : Nat) (count k base : Nat) (hk : o / 8 ≤ k)
    (hc : count = 0 ∨ k + count = (e - 1) / 8 + 1) (hb : count = 0 ∨ base = 8 * k - o)
    (he : 1 ≤ e) :
    chunksFrom o e count k base =
      (List.range' k count).map (fun j => chunkAt o e j (8 * j - o)) := by
  induction count generalizing k base with
  | zero => rfl
  | succ n ih =>
    have hb' : base = 8 * k - o := by simpa using hb
    have hc' : k + (n + 1) = (e - 1) / 8 + 1 := by simpa using hc
    subst hb'
    rw [chunksFrom, List.range'_succ, List.map_cons]
    congr 1
    refine ih (k + 1) _ (by omega) ?_ ?_
    · right; omega
    · rcases Nat.eq_zero_or_pos n with h0 | h0
      · exact .inl h0
      · right
        simp only [chunkAt]
        omega

/-- The chunks of a field in closed form: byte `k` of the field holds the value bits from `8 k - o` on (40 R81). -/
theorem fieldChunks_eq {o len : Nat} (hlen : 1 ≤ len) :
    fieldChunks o len =
      (List.range' (o / 8) ((o + len - 1) / 8 - o / 8 + 1)).map
        (fun k => chunkAt o (o + len) k (8 * k - o)) := by
  unfold fieldChunks lastByte startByte
  have hle : o / 8 ≤ (o + len - 1) / 8 := Nat.div_le_div_right (by omega)
  exact chunksFrom_eq o (o + len) _ _ _ (le_refl _) (.inr (by omega)) (.inr (by omega)) (by omega)

theorem mem_fieldChunks {o len : Nat} (hlen : 1 ≤ len) {c : Chunk} (hc : c ∈ fieldChunks o len) :
    ∃ k, o / 8 ≤ k ∧ k ≤ (o + len - 1) / 8 ∧ c = chunkAt o (o + len) k (8 * k - o) := by
  rw [fieldChunks_eq hlen] at hc
  simp only [List.mem_map, List.mem_range'_1] at hc
  obtain ⟨k, hk, rfl⟩ := hc
  have hle : o / 8 ≤ (o + len - 1) / 8 := Nat.div_le_div_right (by omega)
  exact ⟨k, hk.1, by omega, rfl⟩

/-! ### Reading a field -/

theorem getLsbD_foldl_or (f : Chunk → Word) (l : List Chunk) (a : Word) (i : Nat) :
    (l.foldl (fun acc c => acc ||| f c) a).getLsbD i =
      (a.getLsbD i || l.any (fun c => (f c).getLsbD i)) := by
  induction l generalizing a with
  | nil => simp
  | cons c l ih => simp [ih, Bool.or_assoc]

/-- Value bit `i` is some chunk's bit (40 R88). -/
theorem getLsbD_readField (s : State) (o len i : Nat) :
    (readField s o len).getLsbD i =
      (fieldChunks o len).any (fun c => (c.extract (s.memRead c.byte)).getLsbD i) := by
  unfold readField
  rw [getLsbD_foldl_or]
  simp

/-- The position of a field's bit is a bit of the value (40 R82). -/
theorem valueBit_lt {o len p : Nat} (hp : inField o len p) : valueBit o len p < len := by
  simp only [inField, valueBit] at *
  omega

/-- Distinct positions are distinct value bits (40 R82). -/
theorem valueBit_inj {o len p q : Nat} (hp : inField o len p) (hq : inField o len q)
    (h : valueBit o len p = valueBit o len q) : p = q := by
  simp only [inField, valueBit] at *
  omega

/-- Every value bit has its position (40 R82). -/
theorem valueBit_surj {o len i : Nat} (hi : i < len) :
    ∃ p, inField o len p ∧ valueBit o len p = i := by
  -- the byte that holds bit `i` is the one that holds position `o + i`
  refine ⟨min (o + len) (8 * ((o + i) / 8) + 8) - 1 - (i - (8 * ((o + i) / 8) - o)), ?_, ?_⟩
  · simp only [inField]; omega
  · simp only [valueBit]
    omega

/-- Bit `w(p)` of the field's value is the bit at position `p` (40 R82, R88). -/
theorem readField_valueBit (s : State) {o len p : Nat} (hlen : len ≤ 32) (hp : inField o len p) :
    (readField s o len).getLsbD (valueBit o len p) = s.bitAt p := by
  have hp' := hp
  simp only [inField] at hp'
  have h1 : 1 ≤ len := by omega
  have hi := valueBit_lt hp
  rw [getLsbD_readField, fieldChunks_eq h1, Bool.eq_iff_iff, List.any_eq_true]
  constructor
  · rintro ⟨c, hc, hbit⟩
    simp only [List.mem_map, List.mem_range'_1] at hc
    obtain ⟨k, hk, rfl⟩ := hc
    rw [getLsbD_extract_iff] at hbit
    simp only [chunkAt] at hbit
    obtain ⟨-, hb1, hb2, hb3⟩ := hbit
    simp only [valueBit] at hb1 hb2 hb3
    have hkp : k = p / 8 := by omega
    subst hkp
    unfold State.bitAt
    convert hb3 using 2
    omega
  · intro hbit
    refine ⟨chunkAt o (o + len) (p / 8) (8 * (p / 8) - o), ?_, ?_⟩
    · simp only [List.mem_map, List.mem_range'_1]
      exact ⟨p / 8, by omega, rfl⟩
    · rw [getLsbD_extract_iff]
      simp only [chunkAt]
      refine ⟨by omega, ?_, ?_, ?_⟩
      · simp only [valueBit]; omega
      · simp only [valueBit]; omega
      · unfold State.bitAt at hbit
        convert hbit using 2
        simp only [valueBit]; omega

/-- No bit of the value lies at `L` or above (40 R89). -/
theorem readField_getLsbD_ge (s : State) {o len i : Nat} (h1 : 1 ≤ len) (hi : len ≤ i) :
    (readField s o len).getLsbD i = false := by
  rw [getLsbD_readField, List.any_eq_false]
  intro c hc
  obtain ⟨k, hk1, hk2, rfl⟩ := mem_fieldChunks h1 hc
  rw [getLsbD_extract_iff]
  simp only [chunkAt]
  omega

/-- Two words are equal when they agree on the positions of a field and neither has a bit beyond it. -/
theorem word_ext_field {o len : Nat} {a b : Word} (ha : ∀ i, len ≤ i → a.getLsbD i = false)
    (hb : ∀ i, len ≤ i → b.getLsbD i = false)
    (h : ∀ p, inField o len p → a.getLsbD (valueBit o len p) = b.getLsbD (valueBit o len p)) :
    a = b := by
  refine BitVec.eq_of_getLsbD_eq fun i _ => ?_
  by_cases hi : i < len
  · obtain ⟨p, hp, rfl⟩ := valueBit_surj (o := o) hi
    exact h p hp
  · rw [ha i (by omega), hb i (by omega)]

/-- A field's value depends only on the bits at its positions (40 R88). -/
theorem readField_congr {s t : State} {o len : Nat} (h1 : 1 ≤ len) (h32 : len ≤ 32)
    (h : ∀ p, inField o len p → s.bitAt p = t.bitAt p) : readField s o len = readField t o len :=
  word_ext_field (o := o) (fun _ => readField_getLsbD_ge s h1) (fun _ => readField_getLsbD_ge t h1)
    fun p hp => by rw [readField_valueBit s h32 hp, readField_valueBit t h32 hp, h p hp]

/-! ### Merging a field -/

@[simp] theorem mergeChunk_frameBytes (v : Word) (s : State) (c : Chunk) :
    (mergeChunk v s c).frameBytes = s.frameBytes := rfl

theorem foldl_mergeChunk_fields (v : Word) (l : List Chunk) (s : State) :
    (l.foldl (mergeChunk v) s).frameBytes = s.frameBytes ∧
    (l.foldl (mergeChunk v) s).host = s.host ∧
    (l.foldl (mergeChunk v) s).responses = s.responses ∧
    (l.foldl (mergeChunk v) s).hostReads = s.hostReads := by
  induction l generalizing s with
  | nil => simp
  | cons c l ih => simpa [mergeChunk] using ih (mergeChunk v s c)

@[simp] theorem mergeField_frameBytes (s : State) (o len : Nat) (v : Word) :
    (mergeField s o len v).frameBytes = s.frameBytes := (foldl_mergeChunk_fields _ _ s).1
@[simp] theorem mergeField_host (s : State) (o len : Nat) (v : Word) :
    (mergeField s o len v).host = s.host := (foldl_mergeChunk_fields _ _ s).2.1
@[simp] theorem mergeField_responses (s : State) (o len : Nat) (v : Word) :
    (mergeField s o len v).responses = s.responses := (foldl_mergeChunk_fields _ _ s).2.2.1
@[simp] theorem mergeField_hostReads (s : State) (o len : Nat) (v : Word) :
    (mergeField s o len v).hostReads = s.hostReads := (foldl_mergeChunk_fields _ _ s).2.2.2

theorem foldl_mergeChunk_memRead (v : Word) (g : Nat → Chunk) (hg : ∀ k, (g k).byte = k)
    (count k : Nat) (s : State) (j : Nat) :
    (((List.range' k count).map g).foldl (mergeChunk v) s).memRead j =
      if k ≤ j ∧ j < k + count then s.memRead j ||| (g j).place v else s.memRead j := by
  induction count generalizing k s with
  | zero => simp
  | succ n ih =>
    rw [List.range'_succ, List.map_cons, List.foldl_cons, ih]
    have hj : (mergeChunk v s (g k)).memRead j =
        if j = k then s.memRead k ||| (g k).place v else s.memRead j := by
      rw [mergeChunk, memRead_memWrite, hg]
    rw [hj]
    by_cases h : j = k
    · subst h; simp
    · simp only [h, if_false]
      congr 1
      simp only [eq_iff_iff]
      omega

/-- A byte after a merge: a byte of the field has its chunk's bits added, every other byte is as before (40 R90, R93). -/
theorem memRead_mergeField (s : State) {o len : Nat} (v : Word) (hlen : 1 ≤ len) (j : Nat) :
    (mergeField s o len v).memRead j =
      if o / 8 ≤ j ∧ j ≤ (o + len - 1) / 8 then
        s.memRead j ||| (chunkAt o (o + len) j (8 * j - o)).place (v &&& mask 32 len)
      else s.memRead j := by
  unfold mergeField
  rw [fieldChunks_eq hlen,
    foldl_mergeChunk_memRead _ (fun k => chunkAt o (o + len) k (8 * k - o)) (fun _ => rfl)]
  have hle : o / 8 ≤ (o + len - 1) / 8 := Nat.div_le_div_right (by omega)
  congr 1
  simp only [eq_iff_iff]
  omega

/-- A byte outside the field's bytes is as before (40 R93). -/
theorem memRead_mergeField_outside (s : State) {o len : Nat} (v : Word) (hlen : 1 ≤ len) {j : Nat}
    (hj : j < o / 8 ∨ (o + len - 1) / 8 < j) : (mergeField s o len v).memRead j = s.memRead j := by
  rw [memRead_mergeField s v hlen, if_neg]
  omega

/-- Every bit of the frame after a merge: a position of the field has its value bit added by OR, every other position is as
before (40 R82, R90, R93). -/
theorem bitAt_mergeField (s : State) {o len : Nat} (v : Word) (h1 : 1 ≤ len) (h32 : len ≤ 32)
    (p : Nat) :
    (mergeField s o len v).bitAt p =
      (s.bitAt p || (decide (inField o len p) && v.getLsbD (valueBit o len p))) := by
  unfold State.bitAt
  rw [memRead_mergeField s v h1]
  by_cases hb : o / 8 ≤ p / 8 ∧ p / 8 ≤ (o + len - 1) / 8
  · rw [if_pos hb, BitVec.getLsbD_or]
    congr 1
    rw [Bool.eq_iff_iff, getLsbD_place_iff, Bool.and_eq_true, decide_eq_true_eq]
    simp only [chunkAt, BitVec.getLsbD_and, getLsbD_mask, Bool.and_eq_true, decide_eq_true_eq]
    constructor
    · rintro ⟨h8, hs, hn, hv, -⟩
      have hp : inField o len p := by simp only [inField]; omega
      refine ⟨hp, ?_⟩
      convert hv using 2
      simp only [valueBit, inField] at *; omega
    · rintro ⟨hp, hv⟩
      have hlt := valueBit_lt hp
      have e : 8 * (p / 8) - o + (7 - p % 8 - (8 * (p / 8) + 8 - min (o + len) (8 * (p / 8) + 8))) =
          valueBit o len p := by simp only [valueBit, inField] at *; omega
      simp only [inField] at hp
      rw [e]
      exact ⟨by omega, by omega, by omega, hv, by omega, hlt⟩
  · have hp : ¬ inField o len p := by simp only [inField]; omega
    rw [if_neg hb, decide_eq_false hp]
    simp

/-- A merge depends on the field's low `L` value bits only (40 R90). -/
theorem mergeField_mask (s : State) (o len : Nat) (v : Word) :
    mergeField s o len (v &&& mask 32 len) = mergeField s o len v := by
  unfold mergeField
  rw [BitVec.and_assoc, BitVec.and_self]

/-- A merge keeps the canonical form of the frame. -/
theorem mergeField_frame_wf (s : State) (o len : Nat) (v : Word) (h : s.frame.wf) :
    (mergeField s o len v).frame.wf := by
  unfold mergeField
  generalize fieldChunks o len = l
  induction l generalizing s with
  | nil => exact h
  | cons c l ih => exact ih _ (store_wf _ _ h)

/-- A merge lists only bytes of the field beside the bytes that were listed. -/
theorem mem_mergeField_frame (s : State) {o len : Nat} (v : Word) {e : Host.Cell}
    (h : e ∈ (mergeField s o len v).frame) :
    e ∈ s.frame ∨ ∃ c ∈ fieldChunks o len, e.1 = c.byte := by
  unfold mergeField at h
  revert h
  generalize fieldChunks o len = l
  induction l generalizing s with
  | nil => exact .inl
  | cons c l ih =>
    intro h
    rcases ih _ h with h | ⟨c', hc', he⟩
    · rcases mem_store h with rfl | h
      · exact .inr ⟨c, by simp, rfl⟩
      · exact .inl h
    · exact .inr ⟨c', by simp [hc'], he⟩

/-- Every byte of a legal field exists (40 R80). -/
theorem fieldChunks_byte_lt {o len n : Nat} (h1 : 1 ≤ len) (hb : o + len ≤ 8 * n) {c : Chunk}
    (hc : c ∈ fieldChunks o len) : c.byte < n := by
  obtain ⟨k, hk1, hk2, rfl⟩ := mem_fieldChunks h1 hc
  simp only [chunkAt]
  omega

end Sys2Proof.Machine
end

