-- ==== Sys2Proof/Laws/Commands.lean ====
section
/-! SUPPORT. What a command can do, said once: its checks as propositions, a boolean field as a field of one bit, and the cases
of `exec`. -/

namespace Sys2Proof.Machine

/-! ### The checks -/

@[simp] theorem lengthInvalid_eq_true {len : Nat} :
    lengthInvalid len = true ↔ len = 0 ∨ 32 < len := by
  simp [lengthInvalid, Config.maxLength]

@[simp] theorem lengthInvalid_eq_false {len : Nat} :
    lengthInvalid len = false ↔ 1 ≤ len ∧ len ≤ 32 := by
  rw [← Bool.not_eq_true, lengthInvalid_eq_true]; omega

@[simp] theorem outsideFrame_eq_true {o len n : Nat} :
    outsideFrame o len n = true ↔ 8 * n < o + len := by
  simp [outsideFrame]

@[simp] theorem outsideFrame_eq_false {o len n : Nat} :
    outsideFrame o len n = false ↔ o + len ≤ 8 * n := by
  rw [← Bool.not_eq_true, outsideFrame_eq_true]; omega

@[simp] theorem descriptorNonFinite_eq_false {sc ad : F32} :
    descriptorNonFinite sc ad = false ↔ sc.isFinite = true ∧ ad.isFinite = true := by
  simp [descriptorNonFinite]

/-! ### A boolean field is a field of one bit -/

/-- `chunks(o, 1) = [(o div 8, 1, 7 - (o mod 8), 0)]` (41 R120). -/
theorem fieldChunks_one (o : Nat) :
    fieldChunks o 1 = [{ byte := o / 8, bits := 1, shift := 7 - o % 8, base := 0 }] := by
  rw [fieldChunks_eq (le_refl 1)]
  have h : (o + 1 - 1) / 8 - o / 8 + 1 = 1 := by simp
  rw [h]
  simp only [List.range'_one, List.map_cons, List.map_nil, chunkAt]
  congr 2 <;> omega

/-- The bit DECODE_BOOL reads is the value of the field `(o, 1)` (41 R120). -/
theorem decodeBool_eq_readField (s : State) (o : Nat) :
    (s.memRead (o / 8) >>> (7 - o % 8) &&& 1#8).setWidth 32 = readField s o 1 := by
  unfold readField
  rw [fieldChunks_one]
  simp [Chunk.extract, mask]

/-- The write of ENCODE_BOOL is the merge of one value bit (41 R121). -/
theorem encodeBool_eq_mergeField (s : State) (o : Nat) (v : Bool) :
    s.memWrite (o / 8) (s.memRead (o / 8) ||| (BitVec.ofBool v).setWidth 8 <<< (7 - o % 8)) =
      mergeField s o 1 (boolWord v) := by
  unfold mergeField
  rw [fieldChunks_one]
  cases v <;> simp [mergeChunk, Chunk.place, mask, boolWord]

/-! ### The cases of a command -/

/-- Everything a command can do: it ends in a next state with one response, and either the frame is as before, or a legal field
was merged and the response is OK with `RESULT` 0 (30_encoding R66, R67; 60_exceptions R141). -/
theorem exec_cases (i : Instr) (s : State) :
    (∃ st, st ≠ .ok ∧ exec i s = .next (s.raise st)) ∨
    (∃ r, exec i s = .next (s.respondOk r)) ∨
    (∃ o len v, fieldLegal o len s.frameBytes ∧
      exec i s = .next ((mergeField s o len v).respondOk 0)) := by
  cases i with
  | decodeBits o len =>
    simp only [exec, execDecodeBits]
    split
    · exact .inl ⟨_, by decide, rfl⟩
    · split
      · exact .inl ⟨_, by decide, rfl⟩
      · exact .inr (.inl ⟨_, rfl⟩)
  | encodeBits o len v =>
    simp only [exec, execEncodeBits]
    split
    · exact .inl ⟨_, by decide, rfl⟩
    · split
      · exact .inl ⟨_, by decide, rfl⟩
      · rename_i h1 h2
        rw [Bool.not_eq_true] at h1 h2
        rw [lengthInvalid_eq_false] at h1
        rw [outsideFrame_eq_false] at h2
        exact .inr (.inr ⟨o, len, v, ⟨h1.1, h1.2, h2⟩, rfl⟩)
  | decodeBool o =>
    simp only [exec, execDecodeBool]
    split
    · exact .inl ⟨_, by decide, rfl⟩
    · exact .inr (.inl ⟨_, rfl⟩)
  | encodeBool o v =>
    simp only [exec, execEncodeBool]
    split
    · exact .inl ⟨_, by decide, rfl⟩
    · rename_i h2
      rw [Bool.not_eq_true, outsideFrame_eq_false] at h2
      rw [encodeBool_eq_mergeField]
      exact .inr (.inr ⟨o, 1, _, ⟨le_refl 1, by omega, h2⟩, rfl⟩)
  | decodeScaled o len sc ad =>
    simp only [exec, execDecodeScaled]
    repeat' split
    · exact .inl ⟨_, by decide, rfl⟩
    · exact .inl ⟨_, by decide, rfl⟩
    · exact .inl ⟨_, by decide, rfl⟩
    · exact .inr (.inl ⟨_, rfl⟩)
  | encodeScaled o len v sc ad =>
    simp only [exec, execEncodeScaled]
    split
    · exact .inl ⟨_, by decide, rfl⟩
    · split
      · exact .inl ⟨_, by decide, rfl⟩
      · rename_i h1 h2
        rw [Bool.not_eq_true] at h1 h2
        rw [lengthInvalid_eq_false] at h1
        rw [outsideFrame_eq_false] at h2
        split
        · exact .inl ⟨_, by decide, rfl⟩
        · split
          · exact .inl ⟨_, by decide, rfl⟩
          · split
            · exact .inl ⟨_, by decide, rfl⟩
            · exact .inr (.inr ⟨o, len, _, ⟨h1.1, h1.2, h2⟩, rfl⟩)

/-- The state after a command, in the cases of `exec_cases`. -/
theorem exec_next_cases {i : Instr} {s t : State} (h : exec i s = .next t) :
    (∃ st, st ≠ .ok ∧ t = s.raise st) ∨ (∃ r, t = s.respondOk r) ∨
    (∃ o len v, fieldLegal o len s.frameBytes ∧ t = (mergeField s o len v).respondOk 0) := by
  rcases exec_cases i s with ⟨st, hst, e⟩ | ⟨r, e⟩ | ⟨o, len, v, hf, e⟩ <;> rw [e] at h <;> cases h
  · exact .inl ⟨st, hst, rfl⟩
  · exact .inr (.inl ⟨r, rfl⟩)
  · exact .inr (.inr ⟨o, len, v, hf, rfl⟩)

end Sys2Proof.Machine
end

