-- ==== Sys2Proof/Laws/Float.lean ====
section
/-! SUPPORT. The laws of binary32 rounding (41_field_codec R110): the magnitude that `F32.roundMag` answers is nearest, ties go
to the even one, and it overflows exactly from the midpoint above the largest finite value. -/

namespace Sys2Proof.Machine

/-! ### The value of a magnitude pattern -/

theorem units_small {m : Nat} (h : m < 2 ^ 23) : F32.units m = m := by
  simp only [F32.units, if_pos h]

theorem units_normal {m : Nat} (h : 2 ^ 23 ≤ m) :
    F32.units m = (2 ^ 23 + m % 2 ^ 23) * 2 ^ (m / 2 ^ 23 - 1) := by
  simp only [F32.units, if_neg (Nat.not_lt.mpr h)]

/-- A magnitude in the binade `k` above the lowest, by its significand `r`, the carry into the next binade included. -/
theorem units_binade (k r : Nat) (h : k = 0 ∨ 2 ^ 23 ≤ r) (hr : r ≤ 2 ^ 24) :
    F32.units (k * 2 ^ 23 + r) = r * 2 ^ k := by
  by_cases hs : k * 2 ^ 23 + r < 2 ^ 23
  · have hk : k = 0 := by omega
    subst hk
    rw [units_small hs]; simp
  · rw [units_normal (by omega)]
    rcases Nat.lt_or_ge r (2 ^ 24) with h24 | h24
    · have hr23 : 2 ^ 23 ≤ r := by omega
      have e1 : (k * 2 ^ 23 + r) / 2 ^ 23 - 1 = k := by omega
      have e2 : 2 ^ 23 + (k * 2 ^ 23 + r) % 2 ^ 23 = r := by omega
      rw [e1, e2]
    · have hr' : r = 2 ^ 24 := by omega
      subst hr'
      have e1 : (k * 2 ^ 23 + 2 ^ 24) / 2 ^ 23 - 1 = k + 1 := by omega
      have e2 : (k * 2 ^ 23 + 2 ^ 24) % 2 ^ 23 = 0 := by omega
      rw [e1, e2, Nat.pow_succ]
      ring

theorem units_lt_succ (m : Nat) : F32.units m < F32.units (m + 1) := by
  rcases Nat.lt_or_ge (m + 1) (2 ^ 23) with h | h
  · rw [units_small h, units_small (by omega)]; omega
  · -- write `m + 1` by its binade and its significand
    have hk : ∃ k r, 2 ^ 23 ≤ r ∧ r < 2 ^ 24 ∧ m + 1 = k * 2 ^ 23 + r :=
      ⟨(m + 1) / 2 ^ 23 - 1, 2 ^ 23 + (m + 1) % 2 ^ 23, by omega, by omega, by omega⟩
    obtain ⟨k, r, hr1, hr2, he⟩ := hk
    rw [he, units_binade k r (.inr hr1) (by omega)]
    have hp : 0 < 2 ^ k := Nat.two_pow_pos k
    rcases Nat.eq_or_lt_of_le hr1 with hr | hr
    · -- the lowest of its binade: `m` is the largest of the binade below
      subst hr
      rcases Nat.eq_zero_or_pos k with h0 | h0
      · subst h0
        rw [units_small (by omega)]; omega
      · obtain ⟨j, rfl⟩ := Nat.exists_eq_succ_of_ne_zero (by omega : k ≠ 0)
        have : m = j * 2 ^ 23 + (2 ^ 24 - 1) := by omega
        rw [this, units_binade j _ (.inr (by omega)) (by omega),
          show 2 ^ 23 * 2 ^ j.succ = 2 ^ 24 * 2 ^ j by rw [Nat.pow_succ 2 j]; ring]
        exact Nat.mul_lt_mul_of_pos_right (by norm_num) (Nat.two_pow_pos j)
    · have : m = k * 2 ^ 23 + (r - 1) := by omega
      rw [this, units_binade k _ (.inr (by omega)) (by omega)]
      exact Nat.mul_lt_mul_of_pos_right (by omega) hp

/-- A larger magnitude pattern is a larger value. -/
theorem units_strictMono : StrictMono F32.units := strictMono_nat_of_lt_succ units_lt_succ

/-- Above its lowest point, every value of the binade `k` and of the binades after it is a multiple of `2^k`. -/
theorem two_pow_dvd_units {k m : Nat} (h : k = 0 ∨ (k + 1) * 2 ^ 23 ≤ m) : 2 ^ k ∣ F32.units m := by
  rcases h with rfl | h
  · simp
  · rw [units_normal (by omega)]
    refine Dvd.dvd.mul_left (pow_dvd_pow 2 ?_) _
    have : k + 1 ≤ m / 2 ^ 23 := (Nat.le_div_iff_mul_le (by norm_num)).mpr h
    omega

/-! ### Rounding to an integer -/

/-- `roundHalfEven` answers the floor or the number above it, on the side of the nearer one, and the even one on a tie. -/
theorem roundHalfEven_cases (n d : Nat) :
    (2 * (n % d) < d ∧ F32.roundHalfEven n d = n / d) ∨
    (d < 2 * (n % d) ∧ F32.roundHalfEven n d = n / d + 1) ∨
    (2 * (n % d) = d ∧ F32.roundHalfEven n d = n / d + n / d % 2) := by
  unfold F32.roundHalfEven
  split
  · exact .inl ⟨by assumption, rfl⟩
  · split
    · exact .inr (.inl ⟨by assumption, rfl⟩)
    · exact .inr (.inr ⟨by omega, rfl⟩)

theorem roundHalfEven_bounds (n d : Nat) :
    n / d ≤ F32.roundHalfEven n d ∧ F32.roundHalfEven n d ≤ n / d + 1 := by
  rcases roundHalfEven_cases n d with h | h | h <;> omega

/-- No integer is nearer, and an integer as near as the answer shows that the answer is even. -/
theorem roundHalfEven_nearest (n d j : Nat) (hd : 0 < d) :
    |(F32.roundHalfEven n d : ℤ) * d - n| ≤ |(j : ℤ) * d - n| ∧
    (|(F32.roundHalfEven n d : ℤ) * d - n| = |(j : ℤ) * d - n| → j ≠ F32.roundHalfEven n d →
      F32.roundHalfEven n d % 2 = 0) := by
  have hn : (n : ℤ) = (n / d : ℕ) * d + (n % d : ℕ) := by
    have := Nat.div_add_mod n d
    push_cast
    have h2 : (n : ℤ) = (d : ℤ) * ((n / d : ℕ) : ℤ) + ((n % d : ℕ) : ℤ) := by exact_mod_cast this.symm
    push_cast at h2
    linarith
  have he : n % d < d := Nat.mod_lt _ hd
  set q := n / d with hq
  set e := n % d with hee
  have hdz : (0 : ℤ) < d := by exact_mod_cast hd
  have key : ∀ i : ℕ, (i ≤ q → |(i : ℤ) * d - n| = ((q : ℤ) - i) * d + e) ∧
      (q + 1 ≤ i → |(i : ℤ) * d - n| = ((i : ℤ) - q) * d - e) := by
    intro i
    constructor
    · intro hi
      have h1 : (0 : ℤ) ≤ (q : ℤ) - i := by omega
      rw [abs_of_nonpos (by rw [hn]; nlinarith), hn]; ring
    · intro hi
      have h1 : (1 : ℤ) ≤ (i : ℤ) - q := by omega
      have h2 : (e : ℤ) < d := by exact_mod_cast he
      rw [abs_of_nonneg (by rw [hn]; nlinarith), hn]; ring
  have hq0 : |(q : ℤ) * d - n| = e := by rw [(key q).1 le_rfl]; ring
  have hq1 : |((q + 1 : ℕ) : ℤ) * d - n| = d - e := by
    rw [(key (q + 1)).2 le_rfl]; push_cast; ring
  have he2 : (e : ℤ) < d := by exact_mod_cast he
  have he0 : (0 : ℤ) ≤ e := by positivity
  -- every other integer is at least as far as the one on its side
  have far : (j ≤ q → (e : ℤ) ≤ |(j : ℤ) * d - n| ∧ (j ≠ q → (d : ℤ) + e ≤ |(j : ℤ) * d - n|)) ∧
      (q + 1 ≤ j → (d : ℤ) - e ≤ |(j : ℤ) * d - n| ∧
        (j ≠ q + 1 → 2 * (d : ℤ) - e ≤ |(j : ℤ) * d - n|)) := by
    constructor
    · intro hj
      rw [(key j).1 hj]
      have h1 : (0 : ℤ) ≤ (q : ℤ) - j := by omega
      exact ⟨by nlinarith, fun hne => by
        have h2 : (1 : ℤ) ≤ (q : ℤ) - j := by omega
        nlinarith⟩
    · intro hj
      rw [(key j).2 hj]
      have h1 : (1 : ℤ) ≤ (j : ℤ) - q := by omega
      exact ⟨by nlinarith, fun hne => by
        have h2 : (2 : ℤ) ≤ (j : ℤ) - q := by omega
        nlinarith⟩
  rcases roundHalfEven_cases n d with ⟨hlt, hr⟩ | ⟨hgt, hr⟩ | ⟨heq, hr⟩
  · have hlt' : 2 * (e : ℤ) < d := by exact_mod_cast hlt
    rw [hr, ← hq, hq0]
    rcases Nat.lt_or_ge q j with hj | hj
    · obtain ⟨f1, -⟩ := far.2 hj
      exact ⟨by omega, fun h _ => by omega⟩
    · obtain ⟨f1, f2⟩ := far.1 hj
      exact ⟨f1, fun h hne => by have := f2 hne; omega⟩
  · have hgt' : (d : ℤ) < 2 * e := by exact_mod_cast hgt
    rw [hr, ← hq, hq1]
    rcases Nat.lt_or_ge q j with hj | hj
    · obtain ⟨f1, f2⟩ := far.2 hj
      exact ⟨f1, fun h hne => by have := f2 hne; omega⟩
    · obtain ⟨f1, -⟩ := far.1 hj
      exact ⟨by omega, fun h _ => by omega⟩
  · have heq' : 2 * (e : ℤ) = d := by exact_mod_cast heq
    rw [hr, ← hq]
    refine ⟨?_, fun _ _ => by omega⟩
    have hval : |((q + q % 2 : ℕ) : ℤ) * d - n| = e := by
      rcases Nat.mod_two_eq_zero_or_one q with h0 | h1
      · rw [h0, Nat.add_zero, hq0]
      · rw [h1, hq1]; omega
    rw [hval]
    rcases Nat.lt_or_ge q j with hj | hj
    · have := (far.2 hj).1; omega
    · exact (far.1 hj).1

/-! ### Rounding to a magnitude pattern -/

/-- The binade and the significand that `roundMag` answers. -/
theorem roundMag_spec (n d : Nat) :
    ∃ k r, F32.roundMag n d = k * 2 ^ 23 + r ∧ r = F32.roundHalfEven n (d * 2 ^ k) ∧
      (k = 0 ∨ 2 ^ 23 ≤ n / (d * 2 ^ k)) ∧ n / (d * 2 ^ k) < 2 ^ 24 ∧
      k = Nat.log2 (n / d) - 23 := by
  refine ⟨_, _, rfl, rfl, ?_, ?_, rfl⟩
  · rw [← Nat.div_div_eq_div_mul]
    rcases Nat.eq_zero_or_pos (Nat.log2 (n / d) - 23) with h | h
    · exact .inl h
    · right
      have hne : n / d ≠ 0 := by intro h0; rw [h0] at h; simp at h
      have := Nat.log2_self_le hne
      rw [Nat.le_div_iff_mul_le (Nat.two_pow_pos _), ← Nat.pow_add]
      exact le_trans (Nat.pow_le_pow_right (by norm_num) (by omega)) this
  · rw [← Nat.div_div_eq_div_mul, Nat.div_lt_iff_lt_mul (Nat.two_pow_pos _), ← Nat.pow_add]
    exact lt_of_lt_of_le Nat.lt_log2_self (Nat.pow_le_pow_right (by norm_num) (by omega))

/-- The value of the answer of `roundMag`. -/
theorem units_roundMag (n d : Nat) (hd : 0 < d) :
    ∃ k, F32.units (F32.roundMag n d) = F32.roundHalfEven n (d * 2 ^ k) * 2 ^ k ∧
      F32.roundMag n d = k * 2 ^ 23 + F32.roundHalfEven n (d * 2 ^ k) ∧
      (k = 0 ∨ 2 ^ 23 * (d * 2 ^ k) ≤ n) := by
  obtain ⟨k, r, h1, h2, h3, h4, -⟩ := roundMag_spec n d
  have hb := roundHalfEven_bounds n (d * 2 ^ k)
  refine ⟨k, ?_, h2 ▸ h1, ?_⟩
  · rw [h1, ← h2]
    refine units_binade k r ?_ (by omega)
    rcases h3 with h | h
    · exact .inl h
    · exact .inr (by omega)
  · exact h3.imp id fun h => (Nat.le_div_iff_mul_le (Nat.mul_pos hd (Nat.two_pow_pos k))).mp h

/-- No magnitude is nearer to `n / d` units than the answer of `roundMag`, and another one as near shows that the answer's
fraction is even (93 G2). -/
theorem roundMag_nearest (n d m : Nat) (hd : 0 < d) :
    |(F32.units (F32.roundMag n d) : ℤ) * d - n| ≤ |(F32.units m : ℤ) * d - n| ∧
    (|(F32.units (F32.roundMag n d) : ℤ) * d - n| = |(F32.units m : ℤ) * d - n| →
      m ≠ F32.roundMag n d → F32.roundMag n d % 2 = 0) := by
  obtain ⟨k, hu, hp, hk⟩ := units_roundMag n d hd
  set r := F32.roundHalfEven n (d * 2 ^ k) with hr
  have hD : 0 < d * 2 ^ k := Nat.mul_pos hd (Nat.two_pow_pos k)
  have er : (F32.units (F32.roundMag n d) : ℤ) * d = (r : ℤ) * ((d * 2 ^ k : ℕ) : ℤ) := by
    rw [hu]; push_cast; ring
  rw [er]
  by_cases hm : k = 0 ∨ (k + 1) * 2 ^ 23 ≤ m
  · obtain ⟨j, hj⟩ := two_pow_dvd_units hm
    have ej : (F32.units m : ℤ) * d = (j : ℤ) * ((d * 2 ^ k : ℕ) : ℤ) := by
      rw [hj]; push_cast; ring
    rw [ej]
    obtain ⟨near, tie⟩ := roundHalfEven_nearest n (d * 2 ^ k) j hD
    refine ⟨near, fun h hne => ?_⟩
    have : j ≠ r := by
      rintro rfl
      refine hne (units_strictMono.injective ?_)
      rw [hj, hu]; ring
    have hre := tie h this
    rw [hp]; omega
  · push Not at hm
    obtain ⟨hk0, hm⟩ := hm
    have hlow : 2 ^ 23 * (d * 2 ^ k) ≤ n := hk.resolve_left hk0
    obtain ⟨near, -⟩ := roundHalfEven_nearest n (d * 2 ^ k) (2 ^ 23) hD
    have hlt : F32.units m < 2 ^ 23 * 2 ^ k := by
      have := units_strictMono hm
      rwa [show (k + 1) * 2 ^ 23 = k * 2 ^ 23 + 2 ^ 23 by ring,
        units_binade k (2 ^ 23) (.inr le_rfl) (by norm_num)] at this
    have h1 : (F32.units m : ℤ) * d < ((2 ^ 23 : ℕ) : ℤ) * ((d * 2 ^ k : ℕ) : ℤ) := by
      have : F32.units m * d < 2 ^ 23 * (d * 2 ^ k) := by
        calc F32.units m * d < 2 ^ 23 * 2 ^ k * d := Nat.mul_lt_mul_of_pos_right hlt hd
          _ = 2 ^ 23 * (d * 2 ^ k) := by ring
      exact_mod_cast this
    have h2 : ((2 ^ 23 : ℕ) : ℤ) * ((d * 2 ^ k : ℕ) : ℤ) ≤ n := by exact_mod_cast hlow
    rw [abs_of_nonpos (by linarith : ((2 ^ 23 : ℕ) : ℤ) * ((d * 2 ^ k : ℕ) : ℤ) - n ≤ 0)] at near
    rw [abs_of_nonpos (by linarith : (F32.units m : ℤ) * d - n ≤ 0)]
    exact ⟨by linarith, fun h => by linarith⟩

/-- A significand below an even number `2 h` carries to it exactly from the midpoint on. -/
theorem carry_iff_midpoint {n D M q e r h : Nat} (hmid : M * 2 = (4 * h - 1) * D)
    (hn : D * q + e = n) (he : e < D) (hq : q < 2 * h) (hb : q ≤ r ∧ r ≤ q + 1)
    (hc : (2 * e < D ∧ r = q) ∨ (D < 2 * e ∧ r = q + 1) ∨ (2 * e = D ∧ r = q + q % 2)) :
    2 * h ≤ r ↔ M ≤ n := by
  rcases Nat.lt_or_ge (q + 1) (2 * h) with hlt | hge
  · have h1 : D * (q + 1) ≤ D * (2 * h - 1) := Nat.mul_le_mul_left _ (by omega)
    have h2 : (2 * (2 * h - 1)) * D ≤ (4 * h - 1) * D := Nat.mul_le_mul_right _ (by omega)
    have h3 : (2 * (2 * h - 1)) * D = 2 * (D * (2 * h - 1)) := by ring
    rw [Nat.mul_succ] at h1
    omega
  · have h1 : 4 * h - 1 = 2 * q + 1 := by omega
    have h2 : (4 * h - 1) * D = 2 * (D * q) + D := by rw [h1]; ring
    omega

/-- A magnitude rounds to an infinity exactly from the midpoint above the largest finite value (93 G3). -/
theorem infMag_le_roundMag_iff (n d : Nat) (hd : 0 < d) :
    F32.infMag ≤ F32.roundMag n d ↔ (2 ^ 25 - 1) * 2 ^ 252 * d ≤ n := by
  obtain ⟨k, r, h1, h2, h3, h4, -⟩ := roundMag_spec n d
  have hD : 0 < d * 2 ^ k := Nat.mul_pos hd (Nat.two_pow_pos k)
  have hb := roundHalfEven_bounds n (d * 2 ^ k)
  have hc := roundHalfEven_cases n (d * 2 ^ k)
  rw [← h2] at hb hc
  have hinf : F32.infMag = 255 * 2 ^ 23 := by decide
  have hdm := Nat.div_add_mod n (d * 2 ^ k)
  have hml := Nat.mod_lt n hD
  set q := n / (d * 2 ^ k) with hq
  set e := n % (d * 2 ^ k) with he
  rw [h1, hinf]
  rcases Nat.lt_trichotomy k 253 with hk | hk | hk
  · -- below the top binade
    constructor
    · intro h; omega
    · intro h
      exfalso
      have hlt : n < 2 ^ 24 * (d * 2 ^ k) := (Nat.div_lt_iff_lt_mul hD).mp h4
      have h5 : 2 ^ k ≤ 2 ^ 252 := Nat.pow_le_pow_right (by norm_num) (by omega)
      have h6 : 2 ^ 24 * (d * 2 ^ k) ≤ 2 ^ 24 * (d * 2 ^ 252) :=
        Nat.mul_le_mul_left _ (Nat.mul_le_mul_left _ h5)
      have h7 : 2 ^ 24 * (d * 2 ^ 252) ≤ (2 ^ 25 - 1) * 2 ^ 252 * d := by
        have : (2 ^ 25 - 1) * 2 ^ 252 * d = (2 ^ 25 - 1) * (d * 2 ^ 252) := by ring
        rw [this]; exact Nat.mul_le_mul_right _ (by norm_num)
      omega
  · -- the top binade of the finite values
    subst hk
    have hmid : (2 ^ 25 - 1) * 2 ^ 252 * d * 2 = (2 ^ 25 - 1) * (d * 2 ^ 253) := by
      rw [show (2 : ℕ) ^ 253 = 2 ^ 252 * 2 by norm_num]; ring
    rw [← carry_iff_midpoint (h := 2 ^ 23) hmid hdm hml h4 hb hc]
    omega
  · -- above it
    constructor
    · intro _
      have hlow : 2 ^ 23 ≤ q := h3.resolve_left (by omega)
      have h5 : 2 ^ 23 * (d * 2 ^ k) ≤ n := (Nat.le_div_iff_mul_le hD).mp hlow
      have h6 : 2 ^ 254 ≤ 2 ^ k := Nat.pow_le_pow_right (by norm_num) (by omega)
      have h7 : 2 ^ 23 * (d * 2 ^ 254) ≤ 2 ^ 23 * (d * 2 ^ k) :=
        Nat.mul_le_mul_left _ (Nat.mul_le_mul_left _ h6)
      have h8 : (2 ^ 25 - 1) * 2 ^ 252 * d ≤ 2 ^ 23 * (d * 2 ^ 254) := by
        have : 2 ^ 23 * (d * 2 ^ 254) = 2 ^ 25 * 2 ^ 252 * d := by ring
        rw [this]
        exact Nat.mul_le_mul_right _ (Nat.mul_le_mul_right _ (by norm_num))
      omega
    · intro _
      have hlow : 2 ^ 23 ≤ q := h3.resolve_left (by omega)
      omega

/-! ### Patterns -/

theorem ofBits_valid (w : Word) : (F32.ofBits w).valid = true := by
  simp only [F32.ofBits]
  split
  · simpa [F32.valid] using by assumption
  · split <;> rfl

theorem round_valid (neg : Bool) (n d : Nat) : (F32.round neg n d).valid = true := by
  unfold F32.round
  split
  · simpa [F32.valid] using by assumption
  · rfl

/-- A rounded result carries the sign it was rounded with. -/
@[simp] theorem round_sign (neg : Bool) (n d : Nat) : (F32.round neg n d).sign = neg := by
  unfold F32.round
  split <;> rfl

/-- Rounding gives no NaN. -/
@[simp] theorem round_isNan (neg : Bool) (n d : Nat) : (F32.round neg n d).isNan = false := by
  unfold F32.round
  split <;> rfl

/-- The magnitude of a word from its exponent and its fraction (41 R111). -/
theorem magnitude_eq_fields (w : Word) :
    (w.extractLsb' 0 31).toNat =
      (w.extractLsb' 23 8).toNat * 2 ^ 23 + (w.extractLsb' 0 23).toNat := by
  simp only [BitVec.extractLsb'_toNat, Nat.shiftRight_eq_div_pow]
  omega

theorem ofBits_pattern (neg : Bool) {mag : Nat} (h : mag < 2 ^ 31) :
    F32.ofBits (F32.pattern neg mag) =
      if mag < F32.infMag then .finite neg mag else if mag = F32.infMag then .inf neg else .nan := by
  have h1 : (F32.pattern neg mag).getLsbD 31 = neg := by
    simp only [F32.pattern, BitVec.getLsbD_append]
    simp
  have h2 : ((F32.pattern neg mag).extractLsb' 0 31).toNat = mag := by
    have : (F32.pattern neg mag).extractLsb' 0 31 = BitVec.ofNat 31 mag := by
      apply BitVec.eq_of_getLsbD_eq
      intro i hi
      simp only [F32.pattern, BitVec.getLsbD_extractLsb', BitVec.getLsbD_append]
      simp [hi]
    rw [this]
    simp; omega
  simp only [F32.ofBits, h1, h2]

/-- `f32_of_bits` takes back what `f32_bits` wrote, a NaN included (00_scope R14). -/
theorem ofBits_toBits {x : F32} (h : x.valid = true) : F32.ofBits x.toBits = x := by
  have hi : F32.infMag = 2139095040 := by decide
  cases x with
  | nan =>
    have hlt : Config.nanFraction % (2 ^ 23 - 1) < 2 ^ 23 - 1 := Nat.mod_lt _ (by norm_num)
    rw [F32.toBits, ofBits_pattern _ (by omega), if_neg (by omega), if_neg (by omega)]
  | inf neg =>
    rw [F32.toBits, ofBits_pattern _ (by omega), if_neg (by omega), if_pos rfl]
  | finite neg mag =>
    have hm : mag < F32.infMag := by simpa [F32.valid] using h
    rw [F32.toBits, ofBits_pattern _ (by omega), if_pos hm]

end Sys2Proof.Machine
end

