-- ==== Sys2Proof/Laws/PerInstr.lean ====
section
/-! SUPPORT. The family `EncodedFields`: what the encoder puts in the fields of the command word of each well-formed command
(30_encoding R60, R61, R72), one lemma per constructor of `Instr`. -/

namespace Sys2Proof

/-- The fields of a command word the encoder writes. -/
theorem encodeCmd_fields (op : Opcode) (o l : Nat) (v sc ad : Word) :
    let c : Command := { cmd := encodeCmd op o l, value := v, scale := sc, add := ad }
    c.op = op.bits ∧ c.rsv0 = 0 ∧ c.rsv1 = 0 ∧ c.offsetField = BitVec.ofNat 8 o ∧
      c.lengthField = BitVec.ofNat 8 l := by
  simp only [Command.op, Command.rsv0, Command.rsv1, Command.offsetField, Command.lengthField,
    encodeCmd]
  refine ⟨?_, ?_, ?_, ?_, ?_⟩ <;>
  · apply BitVec.eq_of_getLsbD_eq
    intro i hi
    simp only [BitVec.getLsbD_extractLsb', BitVec.getLsbD_append]
    interval_cases i <;> simp

end Sys2Proof

namespace Sys2Proof.Laws.EncodedFields

/-- The encoder writes the command's opcode, offset and length, and 0 in the reserved fields. -/
def Statement (i : Instr) : Prop :=
  i.wellFormed = true →
    (encode i).op = i.opcode.bits ∧ (encode i).rsv0 = 0 ∧ (encode i).rsv1 = 0 ∧
      (encode i).offsetField.toNat = i.offset ∧ (encode i).lengthField.toNat = i.lengthNumber

theorem of_cmd {op : Opcode} {o l : Nat} {c : Command} (hc : c.cmd = encodeCmd op o l)
    (ho : o < 256) (hl : l < 256) :
    c.op = op.bits ∧ c.rsv0 = 0 ∧ c.rsv1 = 0 ∧ c.offsetField.toNat = o ∧
      c.lengthField.toNat = l := by
  obtain ⟨w, v, sc, ad⟩ := c
  obtain rfl : w = encodeCmd op o l := hc
  obtain ⟨h1, h2, h3, h4, h5⟩ := encodeCmd_fields op o l v sc ad
  refine ⟨h1, h2, h3, ?_, ?_⟩
  · rw [h4]; simp; omega
  · rw [h5]; simp; omega

theorem decodeBits (o l : Nat) : Statement (.decodeBits o l) := by
  intro h
  simp only [Instr.wellFormed, fitsField, Bool.and_eq_true, decide_eq_true_eq] at h
  exact of_cmd rfl h.1 h.2

theorem encodeBits (o l : Nat) (v : Word) : Statement (.encodeBits o l v) := by
  intro h
  simp only [Instr.wellFormed, fitsField, Bool.and_eq_true, decide_eq_true_eq] at h
  exact of_cmd rfl h.1 h.2

theorem decodeBool (o : Nat) : Statement (.decodeBool o) := by
  intro h
  simp only [Instr.wellFormed, fitsField, decide_eq_true_eq] at h
  exact of_cmd rfl h (by simp [Instr.lengthNumber])

theorem encodeBool (o : Nat) (b : Bool) : Statement (.encodeBool o b) := by
  intro h
  simp only [Instr.wellFormed, fitsField, decide_eq_true_eq] at h
  exact of_cmd rfl h (by simp [Instr.lengthNumber])

theorem decodeScaled (o l : Nat) (sc ad : Word) : Statement (.decodeScaled o l sc ad) := by
  intro h
  simp only [Instr.wellFormed, fitsField, Bool.and_eq_true, decide_eq_true_eq] at h
  exact of_cmd rfl h.1 h.2

theorem encodeScaled (o l : Nat) (v sc ad : Word) : Statement (.encodeScaled o l v sc ad) := by
  intro h
  simp only [Instr.wellFormed, fitsField, Bool.and_eq_true, decide_eq_true_eq] at h
  exact of_cmd rfl h.1 h.2

end Sys2Proof.Laws.EncodedFields
end

