-- ==== Sys2Proof/Laws/Step.lean ====
section
/-! SUPPORT. What each host action does in one step. -/

namespace Sys2Proof.Machine

/-- A step with no host action left changes nothing. -/
theorem step_idle {s : State} (h : s.host = []) : step s = .next s := by
  simp [step, performNext, h]

/-- A step performs the oldest host action. -/
theorem step_action {s : State} {a : HostAction} {rest : List HostAction} (h : s.host = a :: rest) :
    step s = performAction a { s with host := rest } := by
  simp [step, performNext, h]

theorem performCommand_legal {c : Command} {i : Instr} (h : decode c = .ok i) (s : State) :
    performCommand c s = exec i s := by
  simp [performCommand, h]

theorem performCommand_illegal {c : Command} {e : DecodeError} (h : decode c = .error e)
    (s : State) : performCommand c s = .next (s.raise .illegalCommand) := by
  simp [performCommand, h]

/-- Everything a step can do. -/
theorem step_cases (s : State) :
    (s.host = [] ∧ step s = .next s) ∨
    (∃ c rest, s.host = .command c :: rest ∧
      step s = performCommand c { s with host := rest }) ∨
    (∃ i v rest, s.host = .writeByte i v :: rest ∧ step s = hostWrite i v { s with host := rest }) ∨
    (∃ i rest, s.host = .readByte i :: rest ∧ step s = hostRead i { s with host := rest }) ∨
    (∃ u rest, s.host = .reset u :: rest ∧ step s = .next { s with host := rest }) := by
  rcases hh : s.host with _ | ⟨a, rest⟩
  · exact .inl ⟨rfl, step_idle hh⟩
  · rw [step_action hh]
    cases a with
    | command c => exact .inr (.inl ⟨c, rest, rfl, rfl⟩)
    | writeByte i v => exact .inr (.inr (.inl ⟨i, v, rest, rfl, rfl⟩))
    | readByte i => exact .inr (.inr (.inr (.inl ⟨i, rest, rfl, rfl⟩)))
    | reset u => exact .inr (.inr (.inr (.inr ⟨u, rest, rfl, rfl⟩)))

/-! ### Runs -/

theorem core_run_zero (s : State) : core.run 0 s = .next s := rfl

/-- A run goes on from the state its first step answers. -/
theorem core_run_succ {s t : State} (k : Nat) (h : step s = .next t) :
    core.run (k + 1) s = core.run k t := by
  have h' : core.step s = .next t := h
  have e := Host.Core.run.eq_2 core s k
  rw [h'] at e
  exact e

end Sys2Proof.Machine
end

