-- ==== Sys2Proof/Tests/Slice0.lean ====
section
/-! SUPPORT. Tests of the model, each expected result taken from the spec's tables or worked by hand from its rules, and a named
witness for each statement that has hypotheses: a concrete state and operands that meet all of them together. -/

namespace Sys2Proof.Tests

open Sys2Proof Sys2Proof.Machine

/-- The idle machine with these frame bytes, all of them written, and these responses. -/
def answered (bytes : List Byte) (responses : List Response) : State :=
  { frameBytes := bytes.length, frame := bytes.zipIdx.map (fun b => (b.2, b.1)), host := [],
    responses := responses, hostReads := [] }

/-- The idle machine with these frame bytes and no response yet. -/
def machine (bytes : List Byte) : State := answered bytes []

/-- The same machine with host actions pending. -/
def pending (bytes : List Byte) (actions : List HostAction) : State :=
  { machine bytes with host := actions }

/-- On these frame bytes the command answers this response and leaves these bytes. -/
def gives (bytes : List Byte) (i : Instr) (status : Status) (result : Word) (after : List Byte) :
    Bool :=
  match exec i (machine bytes) with
  | .next t => decide (t = answered after [⟨status, result⟩])
  | .fault _ | .refused _ => false

/-- The frame of 95_test_vectors 2.2 and 2.4. -/
def telemetry : List Byte := [0xA5, 0x3C, 0x0F, 0xF0, 0x12, 0x34, 0x56, 0x78]

/-- A frame of `n` zero bytes. -/
def zeros (n : Nat) : List Byte := List.replicate n 0

/-! ### Well-formedness: a term that each check refuses (30_encoding R60, R72) -/

theorem test_wellFormed_largest_fields :
    (Instr.encodeScaled 255 255 0 0 0).wellFormed = true ∧
    (Instr.encodeBool 255 true).wellFormed = true := by decide

theorem test_wellFormed_refuses_offset_256 :
    (Instr.decodeBits 256 8).wellFormed = false ∧ (Instr.encodeBits 256 8 0).wellFormed = false ∧
    (Instr.decodeBool 256).wellFormed = false ∧ (Instr.encodeBool 256 true).wellFormed = false ∧
    (Instr.decodeScaled 256 8 0 0).wellFormed = false ∧
    (Instr.encodeScaled 256 8 0 0 0).wellFormed = false := by decide

theorem test_wellFormed_refuses_length_256 :
    (Instr.decodeBits 0 256).wellFormed = false ∧ (Instr.encodeBits 0 256 0).wellFormed = false ∧
    (Instr.decodeScaled 0 256 0 0).wellFormed = false ∧
    (Instr.encodeScaled 0 256 0 0 0).wellFormed = false := by decide

/-! ### Decoding: words written out from 30_encoding R60, R61 (95_test_vectors 2.1) -/

/-- `RSV1 = 0, LENGTH = 10, OFFSET = 14, RSV0 = 0, OP = 000`. -/
theorem test_decode_decodeBits :
    decode ⟨0b00000000_00001010_00001110_00000_000, 0, 0, 0⟩ = .ok (.decodeBits 14 10) := by rfl

theorem test_decode_encodeBits :
    decode ⟨0b00000000_00001010_00001110_00000_001, 0x258, 7, 9⟩ = .ok (.encodeBits 14 10 600) := by
  rfl

theorem test_decode_decodeBool :
    decode ⟨0b00000000_00000000_00001101_00000_010, 5, 7, 9⟩ = .ok (.decodeBool 13) := by rfl

/-- Only `VALUE[0]` is the boolean (30 R62, 92 D13). -/
theorem test_decode_encodeBool :
    decode ⟨0b00000000_00000000_00001101_00000_011, 1, 0, 0⟩ = .ok (.encodeBool 13 true) ∧
    decode ⟨0b00000000_00000000_00000000_00000_011, 0xFFFFFFFE, 0, 0⟩ = .ok (.encodeBool 0 false) :=
  ⟨rfl, rfl⟩

theorem test_decode_decodeScaled :
    decode ⟨0b00000000_00001010_00001110_00000_100, 1, 0x3D4CCCCD, 0xC1200000⟩ =
      .ok (.decodeScaled 14 10 0x3D4CCCCD 0xC1200000) := by rfl

theorem test_decode_encodeScaled :
    decode ⟨0b00000000_00001010_00001110_00000_101, 0x4033D70A, 0x3D4CCCCD, 0xC1200000⟩ =
      .ok (.encodeScaled 14 10 0x4033D70A 0x3D4CCCCD 0xC1200000) := by rfl

/-- The illegal words of 95_test_vectors 2.1. -/
theorem test_decode_refuses_illegal_words :
    decode ⟨0x00000006, 0, 0, 0⟩ = .error .reservedOpcode ∧
    decode ⟨0x00000007, 0, 0, 0⟩ = .error .reservedOpcode ∧
    decode ⟨0x00000008, 0, 0, 0⟩ = .error .reservedField ∧
    decode ⟨0x000A0E0E, 0, 0, 0⟩ = .error .reservedOpcode ∧
    decode ⟨0x01000000, 0, 0, 0⟩ = .error .reservedField ∧
    decode ⟨0x00010002, 0, 0, 0⟩ = .error .boolLength ∧
    decode ⟨0x00010003, 0, 0, 0⟩ = .error .boolLength :=
  ⟨rfl, rfl, rfl, rfl, rfl, rfl, rfl⟩

/-- The words with a bad length are legal (95_test_vectors 2.1). -/
theorem test_decode_accepts_bad_lengths :
    decode ⟨0x00000000, 0, 0, 0⟩ = .ok (.decodeBits 0 0) ∧
    decode ⟨0x00FF0000, 0, 0, 0⟩ = .ok (.decodeBits 0 255) := ⟨rfl, rfl⟩

theorem test_encode_words :
    encode (.encodeBits 14 10 600) = ⟨0x000A0E01, 0x258, 0, 0⟩ ∧
    encode (.encodeBool 13 true) = ⟨0x00000D03, 1, 0, 0⟩ ∧
    encode (.encodeScaled 14 10 0x4033D70A 0x3D4CCCCD 0xC1200000) =
      ⟨0x000A0E05, 0x4033D70A, 0x3D4CCCCD, 0xC1200000⟩ := by decide

/-- The table's numbering, with `VALUE` in bits 63..32. -/
theorem test_decodeTableWord :
    decodeTableWord 32 0x000A0E00 = some (.decodeBits 14 10) ∧
    decodeTableWord 64 0x00000258000A0E01 = some (.encodeBits 14 10 600) ∧
    decodeTableWord 32 0x00000258000A0E01 = some (.encodeBits 14 10 0) ∧
    decodeTableWord 32 6 = none := by decide

/-! ### One command (95_test_vectors 2.2 to 2.7) -/

/-- The field of five bytes (C5). -/
theorem test_decodeBits_five_bytes :
    gives telemetry (.decodeBits 1 32) .ok 0x78079E25 telemetry = true := by decide

/-- The field of seven bits over two bytes (C6). -/
theorem test_decodeBits_two_bytes :
    gives telemetry (.decodeBits 2 7) .ok 0x25 telemetry = true := by decide

theorem test_encodeBits_five_bytes :
    gives (zeros 8) (.encodeBits 1 32 0xDEADBEEF) .ok 0
      [0x6F, 0x7D, 0x5B, 0xBD, 0x80, 0, 0, 0] = true := by decide

/-- OR never clears, and adds to the neighbours' byte. -/
theorem test_encodeBits_merges :
    gives [0xF0, 0x0F, 0, 0, 0, 0, 0, 0] (.encodeBits 6 4 3) .ok 0
      [0xF3, 0x0F, 0, 0, 0, 0, 0, 0] = true := by decide

theorem test_decodeBool_byte_1 :
    gives telemetry (.decodeBool 13) .ok 1 telemetry = true := by decide

theorem test_decodeBool_past_the_end :
    gives telemetry (.decodeBool 64) .outOfBounds 0 telemetry = true := by decide

theorem test_encodeBool_last_bit :
    gives (zeros 8) (.encodeBool 63 true) .ok 0 [0, 0, 0, 0, 0, 0, 0, 1] = true := by decide

/-- False does not clear. -/
theorem test_encodeBool_false :
    gives [0xFF, 0, 0, 0, 0, 0, 0, 0] (.encodeBool 3 false) .ok 0
      [0xFF, 0, 0, 0, 0, 0, 0, 0] = true := by decide

/-- The worked example W5. -/
theorem test_decodeScaled_worked_example :
    gives [0, 0, 0x40, 0, 0, 0, 0, 0] (.decodeScaled 14 10 0x3D4CCCCD 0xC1200000) .ok 0x40333334
      [0, 0, 0x40, 0, 0, 0, 0, 0] = true := by decide +kernel

/-- A subnormal scale is kept. -/
theorem test_decodeScaled_subnormal :
    gives [1, 0, 0, 0, 0, 0, 0, 0] (.decodeScaled 0 8 1 0) .ok 1
      [1, 0, 0, 0, 0, 0, 0, 0] = true := by decide +kernel

/-- Truncated, not rounded to 8. -/
theorem test_encodeScaled_truncates :
    gives (zeros 8) (.encodeScaled 0 3 0x40FFAE14 0x3F800000 0) .ok 0
      [0xE0, 0, 0, 0, 0, 0, 0, 0] = true := by decide +kernel

/-- -10.05 gives a quotient of -1.0000038. -/
theorem test_encodeScaled_range :
    gives (zeros 8) (.encodeScaled 14 10 0xC120CCCD 0x3D4CCCCD 0xC1200000) .conversionRange 0
      (zeros 8) = true := by decide +kernel

/-! ### binary32 (95_test_vectors 2.6) -/

/-- `2^24 + 1` rounds to even, and the largest `u32` rounds to `2^32`. -/
theorem test_f32_from_u32 :
    (F32.ofNat 0x01000001).toBits = 0x4B800000 ∧ (F32.ofNat 0xFFFFFFFF).toBits = 0x4F800000 := by
  decide +kernel

/-- Overflow is the infinity, and `+0 + -0` is `+0`. -/
theorem test_f32_overflow_and_zero :
    F32.mul (F32.ofNat 0xFFFFFFFF) (.ofBits 0xF149F2CA) = .inf true ∧
    F32.sum (.ofBits 0) (.ofBits 0x80000000) = .ofBits 0 := by decide +kernel

/-! ### The assembler (95_test_vectors section 3) -/

theorem test_assemble_scaled :
    assembleLine "encode_scaled 14, 10, 0.05, -10, 2.81".toList =
      .command ⟨0x000A0E05, 0x4033D70A, 0x3D4CCCCD, 0xC1200000⟩ := by decide +kernel

theorem test_assemble_raw :
    assembleLine ".cmd 0x00000006".toList = .command ⟨6, 0, 0, 0⟩ ∧
    assembleLine "decode_bits 256, 8".toList = .rejected ∧
    assembleLine "# a comment".toList = .nothing ∧
    assembleLine ".cmd 0x00080001, 0x0A".toList = .command ⟨0x00080001, 0x0A, 0, 0⟩ := by
  decide +kernel

/-! ### The host's actions (70_reset R160, R170) -/

theorem test_host_write_then_frame :
    step (pending [1, 2] [.writeByte 1 9]) = .next (machine [1, 9]) := by rfl

theorem test_reset_keeps_the_frame :
    step (pending [1, 2] [.reset (some ⟨0x00080001, 0xFF, 0, 0⟩)]) = .next (machine [1, 2]) := by
  rfl

/-- The observation of a run: program P1's first two lines (95_test_vectors, P1). -/
theorem test_observe :
    (answered [1, 2, 0] [⟨.ok, 0⟩, ⟨.ok, 0⟩]).observe =
      { responses := [⟨.ok, 0⟩, ⟨.ok, 0⟩], frame := [1, 2, 0] } := by decide

/-! ### Witnesses: states and operands that meet a statement's hypotheses -/

/-- `decode_bits 0, 8` as the host issues it. -/
def readFirstByte : Command := ⟨0x00080000, 0, 0, 0⟩

theorem witness_StepKeepsWellFormedness :
    (pending [0xA5, 2] [.command readFirstByte]).wf ∧
    step (pending [0xA5, 2] [.command readFirstByte]) =
      .next (answered [0xA5, 2] [⟨.ok, 0xA5⟩]) := ⟨by decide, rfl⟩

theorem witness_StepKeepsParameterAndHistory :
    step (pending [0xA5, 2] [.readByte 0, .command readFirstByte]) =
      .next { pending [0xA5, 2] [.command readFirstByte] with hostReads := [(0, 0xA5)] } := by rfl

theorem witness_ResetEventDiscardsAndChangesNothing :
    (pending [1] [.reset (some readFirstByte), .command readFirstByte]).host =
      .reset (some readFirstByte) :: [.command readFirstByte] ∧
    (pending [1] [.reset none]).host = .reset none :: [] := ⟨rfl, rfl⟩

theorem witness_IdleStepChangesNothing : (machine telemetry).host = [] := by rfl

theorem witness_StepPerformsDecodedCommand :
    (pending telemetry [.command readFirstByte]).host = .command readFirstByte :: [] ∧
    decode readFirstByte = .ok (.decodeBits 0 8) ∧
    decodeTableWord 32 0x00080000 = some (.decodeBits 0 8) := ⟨rfl, rfl, by decide⟩

/-- The last byte of the frame. -/
theorem witness_HostAccessesOneExistingByte :
    (pending [1, 2] [.writeByte 1 9]).host = .writeByte 1 9 :: [] ∧
    (pending [1, 2] [.readByte 1]).host = .readByte 1 :: [] ∧
    1 < (pending [1, 2] [.writeByte 1 9]).frameBytes ∧
    1 < (pending [1, 2] [.readByte 1]).frameBytes := by decide

/-- The first byte that does not exist. -/
theorem witness_HostAccessOutsideFrameStops :
    (pending [1, 2] [.writeByte 2 9]).frameBytes ≤ 2 ∧
    (pending [1, 2] [.writeByte 2 9]).host = .writeByte 2 9 :: [] ∧
    (pending [1, 2] [.readByte 2]).frameBytes ≤ 2 ∧
    (pending [1, 2] [.readByte 2]).host = .readByte 2 :: [] := by decide

theorem witness_EveryCommandGetsOneResponse :
    (pending [1] [.command ⟨7, 0, 0, 0⟩]).host = .command ⟨7, 0, 0, 0⟩ :: [] := by rfl

theorem witness_RunOfHostActionsEnds :
    ∀ a ∈ (pending [1, 2] [.command readFirstByte, .writeByte 1 9, .readByte 0, .reset none]).host,
      a.allowed (pending [1, 2] [.command readFirstByte]).frameBytes = true := by decide

theorem witness_CommandDependsOnFrameOnly :
    (machine telemetry).frameBytes = (answered telemetry [⟨.ok, 5⟩]).frameBytes ∧
    sameFrame (machine telemetry) (answered telemetry [⟨.ok, 5⟩]) := ⟨rfl, fun _ => rfl⟩

theorem witness_NoCommandClearsABit :
    exec (.encodeBits 0 8 0) (machine [0x80]) = .next (answered [0x80] [⟨.ok, 0⟩]) ∧
    (machine [0x80]).bitAt 0 = true := ⟨rfl, by decide⟩

theorem witness_DecodeEncodeAgree : (Instr.decodeScaled 255 255 0x7F800001 0).wellFormed = true := by
  decide

theorem witness_EncodedCommandWord : (Instr.encodeBits 255 255 0xFFFFFFFF).wellFormed = true := by
  decide

theorem witness_DecoderAcceptsExactlyTheTable :
    decode readFirstByte = .ok (.decodeBits 0 8) ∧
    decode ⟨0x00010002, 0, 0, 0⟩ = .error .boolLength ∧
    ∃ r ∈ opcodeTable, r.covers readFirstByte.cmd = true := ⟨rfl, rfl, by decide⟩

/-- Each ground of the rule, and a word of none. -/
theorem witness_IllegalWordsGetIllegalCommand :
    Command.op ⟨6, 0, 0, 0⟩ = 6 ∧ Command.op ⟨7, 0, 0, 0⟩ = 7 ∧ Command.rsv0 ⟨8, 0, 0, 0⟩ ≠ 0 ∧
    Command.rsv1 ⟨0x01000000, 0, 0, 0⟩ ≠ 0 ∧
    (Command.op ⟨0x00010002, 0, 0, 0⟩ = 2 ∧ Command.lengthField ⟨0x00010002, 0, 0, 0⟩ ≠ 0) ∧
    (Command.op ⟨0x00010003, 0, 0, 0⟩ = 3 ∧ Command.lengthField ⟨0x00010003, 0, 0, 0⟩ ≠ 0) ∧
    (let c := readFirstByte
     ¬ (c.op = 6 ∨ c.op = 7 ∨ c.rsv0 ≠ 0 ∨ c.rsv1 ≠ 0 ∨
        ((c.op = 2 ∨ c.op = 3) ∧ c.lengthField ≠ 0))) := by decide

/-- DECODE_BITS, which ignores every operand word. -/
theorem witness_IgnoredOperandWordsHaveNoEffect_decode :
    let c : Command := ⟨0x00080000, 1, 2, 3⟩
    let d : Command := ⟨0x00080000, 4, 5, 6⟩
    c.cmd = d.cmd ∧ ¬ (c.op = 1 ∨ c.op = 5) ∧ c.op ≠ 3 ∧ ¬ (c.op = 4 ∨ c.op = 5) := by decide

/-- ENCODE_BOOL, which keeps bit 0 of `VALUE` only. -/
theorem witness_IgnoredOperandWordsHaveNoEffect_bool :
    let c : Command := ⟨0x00000003, 1, 2, 3⟩
    let d : Command := ⟨0x00000003, 0xFFFFFFFF, 5, 6⟩
    c.cmd = d.cmd ∧ ¬ (c.op = 1 ∨ c.op = 5) ∧ c.value.getLsbD 0 = d.value.getLsbD 0 ∧
      ¬ (c.op = 4 ∨ c.op = 5) := by decide

/-- DECODE_SCALED, which ignores `VALUE`. -/
theorem witness_IgnoredOperandWordsHaveNoEffect_scaled :
    let c : Command := ⟨0x00080004, 1, 2, 3⟩
    let d : Command := ⟨0x00080004, 4, 2, 3⟩
    c.cmd = d.cmd ∧ ¬ (c.op = 1 ∨ c.op = 5) ∧ c.op ≠ 3 ∧ c.scale = d.scale ∧ c.add = d.add := by
  decide

/-- Each side of the line's limits. -/
theorem witness_AssembledLineDecodes :
    (2 ^ 32 - 1 < 2 ^ 32 ∧ 255 < 256 ∧ 255 < 256) ∧ ¬ 256 < 256 ∧ ¬ 2 ^ 32 < 2 ^ 32 ∧
    assemble (.decodeBool 256) = .rejected := by decide

/-- The largest raw word and the first number that is none, and the numbers of a `.cmd` line in both notations. -/
theorem witness_AssembledLineDecodes_raw :
    (2 ^ 32 - 1 < 2 ^ 32 ∧ 0 < 2 ^ 32) ∧
    assemble (.raw (2 ^ 32) 0 0 0) = .rejected ∧
    parseUInt "0x00210006".toList = some 0x00210006 ∧ parseUInt "7".toList = some 7 := by decide

theorem witness_ChunksPartitionTheField : 1 ≤ 32 ∧ 32 ≤ 32 ∧ (⟨4, 1, 7, 31⟩ : Chunk) ∈ fieldChunks 1 32 := by
  decide

/-- The largest offset a command can carry, with a field that ends at bit 287. -/
theorem witness_FieldTouchesExistingBytesOnly :
    fieldLegal 255 32 36 ∧ (⟨35, 7, 1, 25⟩ : Chunk) ∈ fieldChunks 255 32 ∧ 255 < 256 := by decide

theorem witness_BitMappingIsABijection :
    1 ≤ 10 ∧ (⟨1, 2, 0, 0⟩ : Chunk) ∈ fieldChunks 14 10 ∧ 1 < 2 := by decide

/-- The shortest field, the longest one, and one that ends at the frame's last bit. -/
theorem witness_DecodeBitsReturnsTheField :
    fieldLegal 0 1 (machine telemetry).frameBytes ∧ fieldLegal 1 32 (machine telemetry).frameBytes ∧
    fieldLegal 32 32 (machine telemetry).frameBytes ∧ inField 32 32 63 := by decide

theorem witness_DecodeBitsInsideOneByte :
    fieldLegal 60 4 (machine telemetry).frameBytes ∧ 60 / 8 = (60 + 4 - 1) / 8 := by decide

theorem witness_DecodeBitsByteAlignedIsLittleEndian :
    (1 ≤ 1 ∧ 1 ≤ 4 ∧ 7 + 1 ≤ (machine telemetry).frameBytes) ∧
    (1 ≤ 4 ∧ 4 ≤ 4 ∧ 4 + 4 ≤ (machine telemetry).frameBytes) := by decide

/-- A field that ends on a byte boundary, and one that does not. -/
theorem witness_SourceStepListGivesTheField :
    (fieldLegal 14 10 (machine telemetry).frameBytes ∧ 14 / 8 < (14 + 10 - 1) / 8) ∧
    (fieldLegal 1 32 (machine telemetry).frameBytes ∧ 1 / 8 < (1 + 32 - 1) / 8) := by decide

/-- The two frames differ at positions 0 to 3, outside the field. -/
theorem witness_DecodeDependsOnFieldBitsOnly :
    (machine [0xF5]).frameBytes = (machine [0x05]).frameBytes ∧
    (∀ p, inField 4 4 p → (machine [0xF5]).bitAt p = (machine [0x05]).bitAt p) ∧
    (machine [0xF5]).bitAt 7 = (machine [0x05]).bitAt 7 := by
  refine ⟨rfl, fun p hp => ?_, by decide⟩
  obtain ⟨h1, h2⟩ := hp
  interval_cases p <;> decide

/-- Each of the three commands, one of them on an error path. -/
theorem witness_DecodeCommandsFrame :
    exec (.decodeBits 0 8) (machine [5]) = .next (answered [5] [⟨.ok, 5⟩]) ∧
    exec (.decodeBool 7) (machine [5]) = .next (answered [5] [⟨.ok, 1⟩]) ∧
    exec (.decodeScaled 0 33 0 0) (machine [5]) = .next (answered [5] [⟨.invalidLength, 0⟩]) :=
  ⟨rfl, rfl, rfl⟩

theorem witness_EncodeBitsMergesTheField :
    fieldLegal 0 1 (machine telemetry).frameBytes ∧ fieldLegal 32 32 (machine telemetry).frameBytes := by
  decide

/-- Each of the three commands, with a byte outside and a byte inside the field. -/
theorem witness_EncodeCommandsFrame :
    exec (.encodeBits 0 8 5) (machine [0, 1]) = .next (answered [5, 1] [⟨.ok, 0⟩]) ∧
    (∀ c ∈ fieldChunks 0 8, c.byte ≠ 1) ∧
    exec (.encodeBool 8 true) (machine [0, 1]) = .next (answered [0, 0x81] [⟨.ok, 0⟩]) ∧ 0 ≠ 8 / 8 ∧
    exec (.encodeScaled 0 8 0 0 0) (machine [0, 1]) = .next (answered [0, 1] [⟨.invalidScale, 0⟩]) :=
  ⟨rfl, by decide, rfl, by decide, rfl⟩

theorem witness_MergeLaw : fieldLegal 32 32 (machine telemetry).frameBytes := by decide

/-- The largest value of a field of 10 bits, on zeroed positions. -/
theorem witness_EncodeDecodeRoundTrip :
    fieldLegal 14 10 (machine [0xFF, 0, 0]).frameBytes ∧ (1023#32).toNat < 2 ^ 10 ∧
    fieldLegal 14 10 (machine [0xFF, 0xFC, 0]).frameBytes ∧
    ∀ p, inField 14 10 p → (machine [0xFF, 0xFC, 0]).bitAt p = false := by
  refine ⟨by decide, by decide, by decide, fun p hp => ?_⟩
  obtain ⟨h1, h2⟩ := hp
  interval_cases p <;> decide

theorem witness_EncodeIsIdempotent :
    exec (.encodeBits 0 8 5) (machine [2]) = .next (answered [7] [⟨.ok, 0⟩]) ∧
    exec (.encodeBool 0 true) (machine [2]) = .next (answered [0x82] [⟨.ok, 0⟩]) ∧
    exec (.encodeScaled 0 8 0 0 0) (machine [2]) = .next (answered [2] [⟨.invalidScale, 0⟩]) :=
  ⟨rfl, rfl, rfl⟩

/-- Two fields that share a byte, and a position outside the first. -/
theorem witness_EncodeLeavesDisjointFields :
    exec (.encodeBits 0 4 5) (machine [0x0F, 1]) = .next (answered [0x5F, 1] [⟨.ok, 0⟩]) ∧
    (∀ p, inField 0 4 p → ¬ inField 4 12 p) ∧ ¬ inField 0 4 4 ∧ (0 + 4 - 1) / 8 < 1 := by
  refine ⟨rfl, fun p h1 h2 => ?_, by decide, by decide⟩
  exact absurd h1.2 (Nat.not_lt.mpr h2.1)

/-- The first position and the last one. -/
theorem witness_DecodeBoolReadsThePosition :
    0 < 8 * (machine telemetry).frameBytes ∧ 63 < 8 * (machine telemetry).frameBytes := by decide

theorem witness_EncodeBoolSetsThePosition :
    0 < 8 * (machine telemetry).frameBytes ∧ 63 < 8 * (machine telemetry).frameBytes := by decide

/-- A boolean beside a scaled field, each way round (95_test_vectors W6). -/
theorem witness_BooleanFieldIndependence :
    exec (.encodeBool 13 true) (machine [0, 0, 0x40]) = .next (answered [0, 4, 0x40] [⟨.ok, 0⟩]) ∧
    ¬ inField 14 10 13 ∧
    exec (.encodeScaled 14 10 0 0x3F800000 0) (machine [0, 4, 0]) =
      .next (answered [0, 4, 0] [⟨.ok, 0⟩]) := ⟨rfl, by decide, rfl⟩

/-- The descriptor of W5, on a field that ends with the frame. -/
theorem witness_DecodeScaledComputesThePhysicalValue :
    fieldLegal 14 10 (machine (zeros 3)).frameBytes ∧ (F32.ofBits 0x3D4CCCCD).isFinite = true ∧
    (F32.ofBits 0xC1200000).isFinite = true := by decide

/-- A zero scale of either sign. -/
theorem witness_ZeroScaleDecodesToAdd :
    fieldLegal 0 32 (machine telemetry).frameBytes ∧ (F32.ofBits 0).isZero = true ∧
    (F32.ofBits 0x80000000).isZero = true ∧ (F32.ofBits 0x40600000).isFinite = true := by decide

/-- W5. -/
theorem witness_EncodeScaledStoresTheTruncatedQuotient :
    fieldLegal 14 10 (machine (zeros 3)).frameBytes ∧ (F32.ofBits 0x3D4CCCCD).isFinite = true ∧
    (F32.ofBits 0xC1200000).isFinite = true ∧ (F32.ofBits 0x3D4CCCCD).isZero = false ∧
    quotientOutOfRange (F32.div (F32.sub (.ofBits 0x4033D70A) (.ofBits 0xC1200000))
      (.ofBits 0x3D4CCCCD)) = false := by decide +kernel

/-- `2^32`, the first quotient above the range, and the largest below it (95_test_vectors 2.7). -/
theorem witness_ConvertsExactlyTheQuotientsInRange :
    fieldLegal 0 32 (machine (zeros 4)).frameBytes ∧ (F32.ofBits 0x3F800000).isFinite = true ∧
    (F32.ofBits 0).isFinite = true ∧ (F32.ofBits 0x3F800000).isZero = false ∧
    quotientOutOfRange (F32.div (F32.sub (.ofBits 0x4F800000) (.ofBits 0)) (.ofBits 0x3F800000)) =
      true ∧
    quotientOutOfRange (F32.div (F32.sub (.ofBits 0x4F7FFFFF) (.ofBits 0)) (.ofBits 0x3F800000)) =
      false := by decide +kernel

/-- -0.5 and 7.99. -/
theorem witness_TruncationDiscardsTheFraction :
    ((F32.ofBits 0xBF000000).isFinite = true ∧ -1 < (F32.ofBits 0xBF000000).toRat ∧
      (F32.ofBits 0xBF000000).toRat < 0) ∧
    ((F32.ofBits 0x40FFAE14).isFinite = true ∧ 0 ≤ (F32.ofBits 0x40FFAE14).toRat ∧
      (F32.ofBits 0x40FFAE14).toRat < 2 ^ 32) := by
  have h1 : F32.ofBits 0xBF000000 = .finite true 0x3F000000 := by decide
  have h2 : F32.ofBits 0x40FFAE14 = .finite false 0x40FFAE14 := by decide
  rw [h1, h2]
  norm_num [F32.toRat, F32.signedUnits, F32.units, F32.isFinite]

/-- Zeroed positions beside positions that hold ones. -/
theorem witness_ScaledRoundTripExample :
    fieldLegal 14 10 (machine [0xFF, 0xFC, 0]).frameBytes ∧
    ∀ p, inField 14 10 p → (machine [0xFF, 0xFC, 0]).bitAt p = false :=
  witness_EncodeDecodeRoundTrip.2.2

theorem witness_OperationsRoundToNearestEven :
    (F32.ofBits 0x3D4CCCCD).isFinite = true ∧ (F32.ofBits 0x00000001).isFinite = true ∧
    (F32.ofBits 0x00000001).isZero = false ∧ 0xFFFFFFFF < 2 ^ 32 := by decide

theorem witness_SmallIntegersConvertExactly : 2 ^ 24 ≤ 2 ^ 24 := by decide

/-- A sum that is 0 of two numbers that are not, and of two zeros. -/
theorem witness_SignsOfZerosAndResults :
    (F32.finite false 1).isFinite = true ∧ (F32.finite true 1).isFinite = true ∧
    (F32.finite true 1).isZero = false ∧
    (F32.finite false 1).toRat + (F32.finite true 1).toRat = 0 ∧
    (F32.finite true 0).toRat + (F32.finite true 0).toRat = 0 := by
  norm_num [F32.toRat, F32.signedUnits, F32.units, F32.isFinite, F32.isZero]

/-- A finite operand of an infinity, and a finite value over a zero of either sign. -/
theorem witness_NanOperandsAndInvalidOperations :
    (F32.ofBits 0xC1200000).isFinite = true ∧ (F32.ofBits 0x3F800000).isZero = false ∧
    (F32.ofBits 0x3F800000).isFinite = true ∧ (F32.ofBits 0).isZero = true ∧
    (F32.ofBits 0x80000000).isZero = true := by decide

/-- Words on each side of every field limit: an infinity, the first NaN, the largest finite value, the smallest normal value, the
largest subnormal and a zero (41 R111). -/
theorem witness_WordFieldsGiveTheValue :
    ((0xFF800000#32).extractLsb' 23 8 = 0xFF ∧ (0xFF800000#32).extractLsb' 0 23 = 0 ∧
      F32.ofBits 0xFF800000 = .inf true) ∧
    ((0x7F800001#32).extractLsb' 23 8 = 0xFF ∧ (0x7F800001#32).extractLsb' 0 23 = 1 ∧
      F32.ofBits 0x7F800001 = .nan) ∧
    ((0x7F7FFFFF#32).extractLsb' 23 8 = 0xFE ∧ (F32.ofBits 0x7F7FFFFF).isFinite = true) ∧
    ((0x00800000#32).extractLsb' 23 8 = 1 ∧ (F32.ofBits 0x00800000).isFinite = true) ∧
    ((0x007FFFFF#32).extractLsb' 23 8 = 0 ∧ (F32.ofBits 0x007FFFFF).isNan = false) ∧
    ((0x80000000#32).extractLsb' 23 8 = 0 ∧ (F32.ofBits 0x80000000).isZero = true) := by decide

/-- An infinity, and the largest finite value. -/
theorem witness_BitsOfPatternAgree :
    (F32.ofBits 0xFF800000).isNan = false ∧ (F32.ofBits 0x7F7FFFFF).isNan = false := by decide

theorem witness_StatusIsTheFirstErrorInOrder :
    (pending [1] [.command ⟨0x00210006, 0, 0, 0⟩]).host = .command ⟨0x00210006, 0, 0, 0⟩ :: [] := by
  rfl

/-- An illegal command, and a field past the end. -/
theorem witness_FailingCommandChangesNothingElse :
    ((pending telemetry [.command ⟨7, 0, 0, 0⟩]).host = .command ⟨7, 0, 0, 0⟩ :: [] ∧
      step (pending telemetry [.command ⟨7, 0, 0, 0⟩]) =
        .next (answered telemetry [⟨.illegalCommand, 0⟩]) ∧ Status.illegalCommand ≠ .ok) ∧
    ((pending telemetry [.command ⟨0x00083900, 0, 0, 0⟩]).host = .command ⟨0x00083900, 0, 0, 0⟩ :: [] ∧
      step (pending telemetry [.command ⟨0x00083900, 0, 0, 0⟩]) =
        .next (answered telemetry [⟨.outOfBounds, 0⟩]) ∧
      (answered telemetry [⟨.outOfBounds, 0⟩]).responses =
        (pending telemetry [.command ⟨0x00083900, 0, 0, 0⟩]).responses ++ [⟨.outOfBounds, 0⟩] ∧
      Status.outOfBounds ≠ .ok) :=
  ⟨⟨rfl, rfl, by decide⟩, ⟨rfl, rfl, rfl, by decide⟩⟩

/-- A failing command, and each kind of result. -/
theorem witness_ResultByOpcode :
    exec (.encodeBits 0 0 5) (machine [5]) = .next (answered [5] [⟨.invalidLength, 0⟩]) ∧
    exec (.decodeBits 0 8) (machine [5]) = .next (answered [5] [⟨.ok, 5⟩]) ∧
    exec (.decodeBool 7) (machine [5]) = .next (answered [5] [⟨.ok, 1⟩]) ∧
    exec (.encodeBool 7 true) (machine [5]) = .next (answered [5] [⟨.ok, 0⟩]) ∧
    exec (.encodeScaled 0 8 0 0x3F800000 0) (machine [5]) = .next (answered [5] [⟨.ok, 0⟩]) ∧
    exec (.encodeBits 0 8 2) (machine [5]) = .next (answered [7] [⟨.ok, 0⟩]) :=
  ⟨rfl, rfl, rfl, rfl, rfl, rfl⟩

/-- Each end of the bad lengths. -/
theorem witness_BadLengthIsInvalidLength : (0 = 0 ∨ 32 < 0) ∧ (33 = 0 ∨ 32 < 33) := by decide

/-- One bit past the end, and exactly at the end. -/
theorem witness_FieldPastTheEndIsOutOfBounds :
    1 ≤ 8 ∧ 8 ≤ 32 ∧ 8 * (machine telemetry).frameBytes < 57 + 8 ∧
    8 * (machine telemetry).frameBytes < 64 + 1 ∧ ¬ 8 * (machine telemetry).frameBytes < 56 + 8 ∧
    ¬ 8 * (machine telemetry).frameBytes < 63 + 1 := by decide

/-- An infinite `ADD`, and a NaN `SCALE`. -/
theorem witness_NonFiniteDescriptorIsNonFinite :
    fieldLegal 0 8 (machine telemetry).frameBytes ∧ (F32.ofBits 0x7FC00000).isFinite = false ∧
    (F32.ofBits 0xFF800000).isFinite = false := by decide

theorem witness_ZeroScaleIsInvalidOnEncodeOnly :
    fieldLegal 0 8 (machine telemetry).frameBytes ∧ (F32.ofBits 0x80000000).isZero = true ∧
    (F32.ofBits 0).isFinite = true := by decide

/-- An infinite `VALUE`, a NaN quotient, -1, and `2^32`. -/
theorem witness_QuotientOutOfRangeIsConversionRange :
    fieldLegal 0 8 (machine telemetry).frameBytes ∧ (F32.ofBits 0x3F800000).isFinite = true ∧
    (F32.ofBits 0).isFinite = true ∧ (F32.ofBits 0x3F800000).isZero = false ∧
    (F32.ofBits 0xFF800000).isFinite = false ∧
    (F32.div (F32.sub (.ofBits 0x7FC00000) (.ofBits 0)) (.ofBits 0x3F800000)).isNan = true ∧
    (F32.div (F32.sub (.ofBits 0xBF800000) (.ofBits 0)) (.ofBits 0x3F800000)).leMinusOne = true ∧
    (F32.div (F32.sub (.ofBits 0x4F800000) (.ofBits 0)) (.ofBits 0x3F800000)).geTwoPow32 = true := by
  decide +kernel

end Sys2Proof.Tests
end

/-! ### Reading a word as a binary32 value and writing it back (00_scope R14) -/

namespace Sys2Proof.Machine

/-- A word is the pattern of its own sign bit and magnitude (41_field_codec R111). -/
theorem pattern_sign_magnitude (w : Word) :
    F32.pattern (w.getLsbD 31) (w.extractLsb' 0 31).toNat = w :=
  calc F32.pattern (w.getLsbD 31) (w.extractLsb' 0 31).toNat
    _ = BitVec.ofBool w.msb ++ w.setWidth 31 := by
      rw [F32.pattern, BitVec.ofNat_toNat, BitVec.setWidth_eq, BitVec.msb_eq_getLsbD_last,
        ← BitVec.setWidth_eq_extractLsb' (by decide)]
    _ = BitVec.cons w.msb (w.setWidth 31) := BitVec.ofBool_append ..
    _ = w := BitVec.cons_msb_setWidth w

/-- `f32_bits` writes back the word that `f32_of_bits` read, unless it read a NaN, which keeps no payload (log 9). -/
theorem toBits_ofBits {w : Word} (h : (F32.ofBits w).isNan = false) : (F32.ofBits w).toBits = w := by
  simp only [F32.ofBits] at h ⊢
  split_ifs at h ⊢ with hfinite hinf
  · exact pattern_sign_magnitude w
  · rw [F32.toBits, ← hinf]
    exact pattern_sign_magnitude w
  · exact absurd h (by decide)

/-- Settles O51: the sign and the magnitude that a finite value or an infinity keeps are all 32 bits of its word. -/
theorem bitsOfPatternAgree : Obligations.BitsOfPatternAgree :=
  fun _ => toBits_ofBits

end Sys2Proof.Machine

/-! ### A command is its checks and then its effect (60_exceptions R147) -/

namespace Sys2Proof.Machine

/-- What a command does once every check has passed. A boolean field is a field of one bit (41_field_codec R120, R121). -/
def effect (i : Instr) (s : State) : State :=
  match i with
  | .decodeBits o len => s.respondOk (readField s o len)
  | .encodeBits o len v => (mergeField s o len v).respondOk 0
  | .decodeBool o => s.respondOk (readField s o 1)
  | .encodeBool o v => (mergeField s o 1 (boolWord v)).respondOk 0
  | .decodeScaled o len sc ad =>
    s.respondOk (physical (readField s o len) (.ofBits sc) (.ofBits ad)).toBits
  | .encodeScaled o len v sc ad =>
    (mergeField s o len (quotient (.ofBits v) (.ofBits sc) (.ofBits ad)).truncU32).respondOk 0

/-- The state that stands for `done` where none of the errors applies, and else the first error raised on `s`. -/
def checked (errors : List (Status × Bool)) (s done : State) : State :=
  if firstError errors = .ok then done else s.raise (firstError errors)

@[simp] theorem checked_nil (s done : State) : checked [] s done = done := rfl

theorem checked_cons {st : Status} (hst : st ≠ .ok) (b : Bool) (errors : List (Status × Bool))
    (s done : State) :
    checked ((st, b) :: errors) s done = if b then s.raise st else checked errors s done := by
  cases b with
  | false => rfl
  | true => exact if_neg hst

/-- Each command is the errors of 60_exceptions R142 to R148, tested in the order of R147, and after them its effect. -/
theorem exec_eq_checked (i : Instr) (s : State) :
    exec i s = .next (checked (commandErrors s.frameBytes i) s (effect i s)) := by
  cases i <;>
    (simp (disch := decide) only [commandErrors, checked_cons, checked_nil, effect,
      ← decodeBool_eq_readField, ← encodeBool_eq_mergeField]
     rfl)

/-! ### A command reads nothing but the frame -/

/-- A field's value is that of the frame's bytes (40_bit_codec R88). -/
theorem readField_sameFrame {s t : State} (h : sameFrame s t) (o len : Nat) :
    readField s o len = readField t o len := by
  have hread : s.memRead = t.memRead := funext h
  rw [readField, readField, hread]

/-- Each chunk of a merge writes the same byte to frames that hold the same bytes (40_bit_codec R90). -/
theorem mergeChunk_sameFrame {s t : State} (h : sameFrame s t) (v : Word) (c : Chunk) :
    sameFrame (mergeChunk v s c) (mergeChunk v t c) := fun j => by
  rw [mergeChunk, mergeChunk, memRead_memWrite, memRead_memWrite, h c.byte, h j]

/-- Frames that hold the same bytes hold the same bytes after a merge (40_bit_codec R90). -/
theorem mergeField_sameFrame {s t : State} (h : sameFrame s t) (o len : Nat) (v : Word) :
    sameFrame (mergeField s o len v) (mergeField t o len v) :=
  List.foldl_rel (r := sameFrame) h fun c _ _ _ hc => mergeChunk_sameFrame hc _ c

/-- `s'` and `t'` are reached from `s` and `t` by the same response, and their frames hold the same bytes. -/
def answeredAlike (s t s' t' : State) : Prop :=
  ∃ r, sameFrame s' t' ∧ s'.responses = s.responses ++ [r] ∧ t'.responses = t.responses ++ [r]

/-- The same response leaves frames that hold the same bytes as they are (30_encoding R66). -/
theorem respond_answeredAlike {s t : State} (h : sameFrame s t) (st : Status) (r : Word) :
    answeredAlike s t (s.respond st r) (t.respond st r) :=
  ⟨⟨st, r⟩, h, rfl, rfl⟩

/-- The answer of a decode command is a function of the field's value (40_bit_codec R88, 41_field_codec R120, R122). -/
theorem respondOk_readField_answeredAlike {s t : State} (h : sameFrame s t) (o len : Nat)
    (f : Word → Word) :
    answeredAlike s t (s.respondOk (f (readField s o len))) (t.respondOk (f (readField t o len))) := by
  rw [readField_sameFrame h]
  exact respond_answeredAlike h _ _

/-- An encode command merges a value that is decided by its operands (40_bit_codec R90, 41_field_codec R121, R123). -/
theorem mergeField_answeredAlike {s t : State} (h : sameFrame s t) (o len : Nat) (v : Word) :
    answeredAlike s t ((mergeField s o len v).respondOk 0) ((mergeField t o len v).respondOk 0) :=
  ⟨⟨.ok, 0⟩, mergeField_sameFrame h o len v, by simp, by simp⟩

/-- The effect of a command is decided by the frame alone (10_state R20, R22, R24). -/
theorem effect_answeredAlike {s t : State} (h : sameFrame s t) (i : Instr) :
    answeredAlike s t (effect i s) (effect i t) := by
  cases i with
  | decodeBits o len => exact respondOk_readField_answeredAlike h o len id
  | encodeBits o len v => exact mergeField_answeredAlike h o len v
  | decodeBool o => exact respondOk_readField_answeredAlike h o 1 id
  | encodeBool o v => exact mergeField_answeredAlike h o 1 (boolWord v)
  | decodeScaled o len sc ad =>
    exact respondOk_readField_answeredAlike h o len
      fun raw => (physical raw (.ofBits sc) (.ofBits ad)).toBits
  | encodeScaled o len v sc ad => exact mergeField_answeredAlike h o len _

/-- Tested on one list of errors, two states are answered alike where their effects are (60_exceptions R141, R147). -/
theorem checked_answeredAlike {s t s' t' : State} (h : sameFrame s t) (hdone : answeredAlike s t s' t')
    (errors : List (Status × Bool)) :
    answeredAlike s t (checked errors s s') (checked errors t t') := by
  unfold checked
  split
  · exact hdone
  · exact respond_answeredAlike h _ 0

/-- Settles O12: the errors are tested on `FRAME_BYTES` and the operands, and the effect reads only the frame. -/
theorem commandDependsOnFrameOnly : Obligations.CommandDependsOnFrameOnly := by
  intro s t i hbytes h
  have ht : exec i t = .next (checked (commandErrors s.frameBytes i) t (effect i t)) :=
    hbytes ▸ exec_eq_checked i t
  obtain ⟨r, hframe, hrs, hrt⟩ := checked_answeredAlike h (effect_answeredAlike h i) _
  exact ⟨_, _, r, exec_eq_checked i s, ht, hframe, hrs, hrt⟩

/-! ### The state at reset -/

/-- Settles O1: the reset state lists nothing, so every byte reads as its power-on draw. -/
theorem resetLeavesNothingPending : Obligations.ResetLeavesNothingPending :=
  ⟨rfl, rfl, rfl, rfl, fun _ => rfl⟩

/-- Settles O2: each clause of the invariant ranges over a list that is empty at reset. -/
theorem resetIsWellFormed : Obligations.ResetIsWellFormed :=
  ⟨.nil, List.forall_mem_nil _, List.forall_mem_nil _, List.forall_mem_nil _⟩

end Sys2Proof.Machine

/-! ### Every step keeps the state well-formed (20_memory R49) -/

namespace Sys2Proof.Machine

/-- A response keeps the invariant if it carries a result with status OK only (30_encoding R67). -/
theorem respond_wf {s : State} (hs : s.wf) {st : Status} {r : Word} (hr : st ≠ .ok → r = 0) :
    (s.respond st r).wf := by
  obtain ⟨hform, hframe, hreads, hresults⟩ := hs
  exact ⟨hform, hframe, hreads, List.forall_mem_append.2 ⟨hresults, List.forall_mem_singleton.2 hr⟩⟩

/-- Failing with a status keeps the invariant (60_exceptions R141). -/
theorem raise_wf {s : State} (hs : s.wf) (st : Status) : (s.raise st).wf :=
  respond_wf hs fun _ => rfl

/-- Completing with OK keeps the invariant, whatever the result. -/
theorem respondOk_wf {s : State} (hs : s.wf) (r : Word) : (s.respondOk r).wf :=
  respond_wf hs fun h => absurd rfl h

/-- A write to a byte that exists keeps the invariant (10_state R21). -/
theorem memWrite_wf {s : State} (hs : s.wf) {i : Nat} (hi : i < s.frameBytes) (v : Byte) :
    (s.memWrite i v).wf := by
  obtain ⟨hform, hframe, hreads, hresults⟩ := hs
  refine ⟨store_wf i v hform, fun e he => ?_, hreads, hresults⟩
  rcases mem_store he with rfl | he
  · exact hi
  · exact hframe e he

/-- Merging a legal field keeps the invariant: every byte of such a field exists (40_bit_codec R80). -/
theorem mergeField_wf {s : State} (hs : s.wf) {o len : Nat} (hfield : fieldLegal o len s.frameBytes)
    (v : Word) : (mergeField s o len v).wf := by
  obtain ⟨hform, hframe, hreads, hresults⟩ := hs
  obtain ⟨hlen, -, hend⟩ := hfield
  refine ⟨mergeField_frame_wf s o len v hform, fun e he => ?_, by simpa using hreads,
    by simpa using hresults⟩
  rw [mergeField_frameBytes]
  rcases mem_mergeField_frame s v he with he | ⟨c, hc, hbyte⟩
  · exact hframe e he
  · exact hbyte ▸ fieldChunks_byte_lt hlen hend hc

/-- Every instruction keeps the invariant. -/
theorem exec_wf {i : Instr} {s t : State} (hs : s.wf) (h : exec i s = .next t) : t.wf := by
  rcases exec_next_cases h with ⟨st, -, rfl⟩ | ⟨r, rfl⟩ | ⟨o, len, v, hfield, rfl⟩
  · exact raise_wf hs st
  · exact respondOk_wf hs r
  · exact respondOk_wf (mergeField_wf hs hfield v) 0

/-- Every command keeps the invariant, an illegal one too (60_exceptions R146). -/
theorem performCommand_wf {c : Command} {s t : State} (hs : s.wf)
    (h : performCommand c s = .next t) : t.wf := by
  cases hc : decode c with
  | ok i => exact exec_wf hs (performCommand_legal hc s ▸ h)
  | error e =>
    rw [performCommand_illegal hc] at h
    cases h
    exact raise_wf hs _

/-! #### The host's accesses (70_reset_and_hazards R170) -/

theorem hostWrite_inside {s : State} {i : Nat} (hi : i < s.frameBytes) (v : Byte) :
    hostWrite i v s = .next (s.memWrite i v) := if_pos hi

theorem hostWrite_outside {s : State} {i : Nat} (hi : s.frameBytes ≤ i) (v : Byte) :
    hostWrite i v s = .fault (.hostAccessOutsideFrame i) := if_neg hi.not_gt

theorem hostRead_inside {s : State} {i : Nat} (hi : i < s.frameBytes) :
    hostRead i s = .next { s with hostReads := s.hostReads ++ [(i, s.memRead i)] } := if_pos hi

theorem hostRead_outside {s : State} {i : Nat} (hi : s.frameBytes ≤ i) :
    hostRead i s = .fault (.hostAccessOutsideFrame i) := if_neg hi.not_gt

/-- A host write that completes keeps the invariant. -/
theorem hostWrite_wf {i : Nat} {v : Byte} {s t : State} (hs : s.wf) (h : hostWrite i v s = .next t) :
    t.wf := by
  rcases lt_or_ge i s.frameBytes with hi | hi
  · rw [hostWrite_inside hi] at h
    cases h
    exact memWrite_wf hs hi v
  · rw [hostWrite_outside hi] at h
    cases h

/-- A host read that completes keeps the invariant: the byte it took exists. -/
theorem hostRead_wf {i : Nat} {s t : State} (hs : s.wf) (h : hostRead i s = .next t) : t.wf := by
  rcases lt_or_ge i s.frameBytes with hi | hi
  · rw [hostRead_inside hi] at h
    cases h
    obtain ⟨hform, hframe, hreads, hresults⟩ := hs
    exact ⟨hform, hframe, List.forall_mem_append.2 ⟨hreads, List.forall_mem_singleton.2 hi⟩, hresults⟩
  · rw [hostRead_outside hi] at h
    cases h

/-- Settles O3, by the cases of a step. Taking the oldest host action leaves what the invariant speaks of. -/
theorem stepKeepsWellFormedness : Obligations.StepKeepsWellFormedness := by
  intro s t hs h
  have hrest : ∀ rest, State.wf { s with host := rest } := fun _ => hs
  rcases step_cases s with ⟨-, e⟩ | ⟨c, rest, -, e⟩ | ⟨i, v, rest, -, e⟩ | ⟨i, rest, -, e⟩ |
    ⟨u, rest, -, e⟩ <;> rw [e] at h
  · cases h
    exact hs
  · exact performCommand_wf (hrest rest) h
  · exact hostWrite_wf (hrest rest) h
  · exact hostRead_wf (hrest rest) h
  · cases h
    exact hrest rest

/-- Settles O9: a byte at or above `FRAME_BYTES` fails the test of either access. -/
theorem hostAccessOutsideFrameStops : Obligations.HostAccessOutsideFrameStops := by
  intro s i v rest hi
  have hrest : State.frameBytes { s with host := rest } ≤ i := hi
  exact ⟨fun h => (step_action h).trans (hostWrite_outside hrest v),
    fun h => (step_action h).trans (hostRead_outside hrest)⟩

end Sys2Proof.Machine

/-! ### The frame of a command (20_memory R40, R47, R48) -/

namespace Sys2Proof.Machine

/-- A command without an error has its effect. -/
theorem exec_without_error {i : Instr} {s : State}
    (hok : firstError (commandErrors s.frameBytes i) = .ok) : exec i s = .next (effect i s) := by
  rw [exec_eq_checked, checked, if_pos hok]

/-- A command with an error raises the first one (60_exceptions R147). -/
theorem exec_with_error {i : Instr} {s : State}
    (herr : firstError (commandErrors s.frameBytes i) ≠ .ok) :
    exec i s = .next (s.raise (firstError (commandErrors s.frameBytes i))) := by
  rw [exec_eq_checked, checked, if_neg herr]

/-- The state after a command is that of its effect, or that of a raised status. -/
theorem exec_next_effect_or_raise {i : Instr} {s t : State} (h : exec i s = .next t) :
    t = effect i s ∨ ∃ st, t = s.raise st := by
  by_cases hok : firstError (commandErrors s.frameBytes i) = .ok
  · rw [exec_without_error hok] at h
    cases h
    exact .inl rfl
  · rw [exec_with_error hok] at h
    cases h
    exact .inr ⟨_, rfl⟩

/-- Every command adds one response and leaves the parameter, the host's actions and its reads (20_memory R47). -/
theorem exec_keeps_rest {i : Instr} {s t : State} (h : exec i s = .next t) :
    t.frameBytes = s.frameBytes ∧ t.host = s.host ∧ t.hostReads = s.hostReads ∧
      ∃ r, t.responses = s.responses ++ [r] := by
  rcases exec_next_cases h with ⟨st, -, rfl⟩ | ⟨r, rfl⟩ | ⟨o, len, v, -, rfl⟩ <;> simp

/-! #### Decode commands -/

/-- A command whose effect is a response does nothing else, on an error path too. -/
theorem exec_adds_response {i : Instr} {s t : State} (heffect : ∃ r, effect i s = s.respondOk r)
    (h : exec i s = .next t) : ∃ r, t = { s with responses := s.responses ++ [r] } := by
  rcases exec_next_effect_or_raise h with rfl | ⟨st, rfl⟩
  · obtain ⟨r, hr⟩ := heffect
    exact ⟨_, hr⟩
  · exact ⟨_, rfl⟩

/-- Settles O29: the effect of a decode command is its response (40_bit_codec R89). -/
theorem decodeCommandsFrame : Obligations.DecodeCommandsFrame := by
  rintro s t o len sc ad (h | h | h) <;> exact exec_adds_response ⟨_, rfl⟩ h

/-! #### Encode commands -/

/-- A merge leaves every byte that no chunk of the field lies in (40_bit_codec R90). -/
theorem memRead_mergeField_of_forall_ne (s : State) {o len k : Nat} (v : Word)
    (hk : ∀ c ∈ fieldChunks o len, c.byte ≠ k) : (mergeField s o len v).memRead k = s.memRead k :=
  List.foldlRecOn (motive := fun t : State => t.memRead k = s.memRead k) _ _ rfl
    fun _ ht c hc => (memRead_memWrite_ne _ _ (hk c hc).symm).trans ht

/-- On a frame that a merge has left, a second merge of the same value adds nothing: its bits are there (20_memory R48). -/
theorem mergeField_sameFrame_of_merged {s t : State} {o len : Nat} {v : Word} (hlen : 1 ≤ len)
    (ht : sameFrame t (mergeField s o len v)) : sameFrame (mergeField t o len v) t := fun j => by
  rw [memRead_mergeField t v hlen, ht j, memRead_mergeField s v hlen]
  split
  · rw [BitVec.or_assoc, BitVec.or_self]
  · rfl

/-- A command that passes the length check has a field of at least one bit (60_exceptions R142). -/
theorem one_le_of_firstError_ok {len : Nat} {errors : List (Status × Bool)}
    (h : firstError ((.invalidLength, decide (len = 0 ∨ len > 32)) :: errors) = .ok) : 1 ≤ len := by
  by_contra hlen
  have hzero : len = 0 := by omega
  simp [firstError, hzero] at h

section
variable {i : Instr} {o len : Nat} {v : Word}
  (hmerge : ∀ s, effect i s = (mergeField s o len v).respondOk 0)
include hmerge

/-- A command whose effect is a merge leaves every byte that no chunk of the field lies in. -/
theorem exec_merge_memRead {s t : State} (h : exec i s = .next t) {k : Nat}
    (hk : ∀ c ∈ fieldChunks o len, c.byte ≠ k) : t.memRead k = s.memRead k := by
  rcases exec_next_effect_or_raise h with rfl | ⟨st, rfl⟩
  · rw [hmerge]
    exact memRead_mergeField_of_forall_ne s v hk
  · rfl

/-- A command whose effect is a merge, performed again, is tested for the same errors, and leaves the frame. -/
theorem exec_merge_again {s t : State} (h : exec i s = .next t)
    (hlen : ∀ n, firstError (commandErrors n i) = .ok → 1 ≤ len) : ∃ u, exec i t = .next u ∧ sameFrame u t := by
  obtain ⟨hbytes, -⟩ := exec_keeps_rest h
  by_cases hok : firstError (commandErrors s.frameBytes i) = .ok
  · have hagain := exec_without_error (hbytes ▸ hok)
    rw [exec_without_error hok] at h
    cases h
    refine ⟨_, hagain, ?_⟩
    rw [hmerge, hmerge s]
    exact mergeField_sameFrame_of_merged (hlen _ hok) fun _ => rfl
  · exact ⟨_, exec_with_error (hbytes ▸ hok), fun _ => rfl⟩

end

/-- Settles O31: an error leaves the frame, and a merge stores to the bytes of its chunks only. -/
theorem encodeCommandsFrame : Obligations.EncodeCommandsFrame := by
  intro s t o len v sc ad b
  refine ⟨?_, fun h k hk => ?_, ?_⟩
  · rintro (h | h) k hk <;> exact exec_merge_memRead (fun _ => rfl) h hk
  · refine exec_merge_memRead (o := o) (len := 1) (fun _ => rfl) h ?_
    rw [fieldChunks_one]
    exact List.forall_mem_singleton.2 hk.symm
  · rintro (h | h | h) <;> exact exec_keeps_rest h

/-- Settles O34: the second command finds the errors of the first, or the bits it would add. -/
theorem encodeIsIdempotent : Obligations.EncodeIsIdempotent := by
  rintro s t o len v sc ad b i (rfl | rfl | rfl) h
  · exact exec_merge_again (fun _ => rfl) h fun _ => one_le_of_firstError_ok
  · exact exec_merge_again (o := o) (fun _ => rfl) h fun _ _ => le_refl 1
  · exact exec_merge_again (fun _ => rfl) h fun _ => one_le_of_firstError_ok

end Sys2Proof.Machine

/-! ### The decoder by the fields of the command word (30_encoding R60, R61, R68) -/

namespace Sys2Proof

/-- The opcode map reads an operation from its own bits, and from no other. -/
theorem Opcode.ofBits_eq_some_iff {b : BitVec 3} {op : Opcode} :
    Opcode.ofBits b = some op ↔ b = op.bits := by
  cases op <;> revert b <;> decide

/-- A command word names one operation at most. -/
theorem Opcode.bits_injective : Function.Injective Opcode.bits := by
  intro op op' h
  have hop := Opcode.ofBits_eq_some_iff.2 h
  rw [Opcode.ofBits_eq_some_iff.2 rfl] at hop
  exact Option.some.inj hop

/-- The command word is a legal one of the operation `op` (30_encoding R60, R61, R68). -/
def Command.legalFor (c : Command) (op : Opcode) : Prop :=
  c.op = op.bits ∧ c.rsv0 = 0 ∧ c.rsv1 = 0 ∧ (op.isBool = true → c.lengthField = 0)

/-- The decoder accepts the legal words of an operation, with the operands that the operation reads. -/
theorem decode_eq_ok_iff {c : Command} {i : Instr} :
    decode c = .ok i ↔ ∃ op, c.legalFor op ∧ c.instr op = i := by
  constructor
  · intro h
    unfold decode at h
    split at h
    · cases h
    · rename_i op hop
      split_ifs at h with hrsv hlen
      cases h
      push Not at hrsv hlen
      obtain ⟨h0, h1⟩ := hrsv
      exact ⟨op, ⟨Opcode.ofBits_eq_some_iff.1 hop, h0, h1, hlen⟩, rfl⟩
  · rintro ⟨op, ⟨hop, h0, h1, hlen⟩, rfl⟩
    simp only [decode, Opcode.ofBits_eq_some_iff.2 hop, h0, h1]
    simpa using hlen

@[simp] theorem Command.opcode_instr (c : Command) (op : Opcode) : (c.instr op).opcode = op := by
  cases op <;> rfl

/-! #### Decoding what the encoder wrote -/

/-- The fields that the encoder writes, for every command (30_encoding R60, R72). -/
theorem encode_fields (i : Instr) : Laws.EncodedFields.Statement i := by
  cases i with
  | decodeBits o l => exact Laws.EncodedFields.decodeBits o l
  | encodeBits o l v => exact Laws.EncodedFields.encodeBits o l v
  | decodeBool o => exact Laws.EncodedFields.decodeBool o
  | encodeBool o b => exact Laws.EncodedFields.encodeBool o b
  | decodeScaled o l sc ad => exact Laws.EncodedFields.decodeScaled o l sc ad
  | encodeScaled o l v sc ad => exact Laws.EncodedFields.encodeScaled o l v sc ad

/-- The length of a BOOL command is 0 (30_encoding R60). -/
theorem Instr.lengthNumber_of_isBool {i : Instr} (h : i.opcode.isBool = true) :
    i.lengthNumber = 0 := by
  cases i with
  | decodeBool o => rfl
  | encodeBool o b => rfl
  | decodeBits | encodeBits | decodeScaled | encodeScaled => cases h

/-- `VALUE[0]` of the word for a boolean is the boolean (30_encoding R62). -/
@[simp] theorem getLsbD_boolWord (b : Bool) : (boolWord b).getLsbD 0 = b := by
  cases b <;> rfl

/-- The operands of a command are its numbers and its operand words (30_encoding R62, R63, R65). -/
theorem instr_encode {i : Instr} (ho : (encode i).offsetField.toNat = i.offset)
    (hl : (encode i).lengthField.toNat = i.lengthNumber) : (encode i).instr i.opcode = i := by
  cases i with
  | decodeBits o l => exact congrArg₂ Instr.decodeBits ho hl
  | encodeBits o l v => exact congrArg₂ (Instr.encodeBits · · v) ho hl
  | decodeBool o => exact congrArg Instr.decodeBool ho
  | encodeBool o b => exact congrArg₂ Instr.encodeBool ho (getLsbD_boolWord b)
  | decodeScaled o l sc ad => exact congrArg₂ (Instr.decodeScaled · · sc ad) ho hl
  | encodeScaled o l v sc ad => exact congrArg₂ (Instr.encodeScaled · · v sc ad) ho hl

/-- Settles O14: the word of a command is legal for its operation, and its fields and operand words are the operands. -/
theorem decodeEncodeAgree : Obligations.DecodeEncodeAgree := by
  intro i hi
  obtain ⟨hop, h0, h1, ho, hl⟩ := encode_fields i hi
  refine decode_eq_ok_iff.2 ⟨i.opcode, ⟨hop, h0, h1, fun hbool => ?_⟩, instr_encode ho hl⟩
  rw [Instr.lengthNumber_of_isBool hbool] at hl
  exact BitVec.eq_of_toNat_eq hl

/-- A command word as the number of its fields (30_encoding R60). -/
theorem Command.cmd_toNat (c : Command) :
    c.cmd.toNat = c.rsv1.toNat * 2 ^ 24 + c.lengthField.toNat * 2 ^ 16 +
      c.offsetField.toNat * 2 ^ 8 + c.rsv0.toNat * 2 ^ 3 + c.op.toNat := by
  have hlt := c.cmd.isLt
  simp only [Command.rsv1, Command.lengthField, Command.offsetField, Command.rsv0, Command.op,
    BitVec.extractLsb'_toNat, Nat.shiftRight_eq_div_pow]
  omega

/-- Settles O15: a command word is the sum of its fields, and the reserved ones are 0. -/
theorem encodedCommandWord : Obligations.EncodedCommandWord := by
  intro i hi
  obtain ⟨hop, h0, h1, ho, hl⟩ := encode_fields i hi
  rw [Command.cmd_toNat, hop, h0, h1, ho, hl]
  simp

/-! #### The rows of the opcode table (opcode_table.json) -/

/-- The bits that a row of the table tests: all but the offset and, unless it must be 0, the length. -/
def testedBits (isBool : Bool) : Word :=
  BitVec.allOnes 8 ++ (if isBool then BitVec.allOnes 8 else 0) ++ 0#8 ++ BitVec.allOnes 5 ++
    BitVec.allOnes 3

/-- Each row tests those bits, for the word of its operation with offset 0 and length 0. -/
theorem opcodeTable_row {r : OpcodeRow} (hr : r ∈ opcodeTable) :
    r.mask = testedBits r.op.isBool ∧ r.pattern = encodeCmd r.op 0 0 := by
  revert r
  decide

/-- A command word is its fields, the highest first (30_encoding R60). -/
theorem Command.cmd_eq_append (c : Command) :
    c.rsv1 ++ c.lengthField ++ c.offsetField ++ c.rsv0 ++ c.op = c.cmd := by
  simp only [Command.rsv1, Command.lengthField, Command.offsetField, Command.rsv0, Command.op]
  rw [BitVec.extractLsb'_append_extractLsb'_eq_extractLsb' (rfl : 24 = 16 + 8),
    BitVec.extractLsb'_append_extractLsb'_eq_extractLsb' (rfl : 16 = 8 + 8),
    BitVec.extractLsb'_append_extractLsb'_eq_extractLsb' (rfl : 8 = 3 + 5),
    BitVec.extractLsb'_append_extractLsb'_eq_extractLsb' (rfl : 3 = 0 + 3)]
  exact BitVec.extractLsb'_eq_self

/-- A test of two fields together is a test of each. -/
theorem and_append_eq_append_iff {m n : Nat} {a x p : BitVec m} {b y q : BitVec n} :
    (a ++ b) &&& (x ++ y) = p ++ q ↔ a &&& x = p ∧ b &&& y = q := by
  rw [BitVec.and_append]
  constructor
  · intro h
    have hhigh := congrArg (BitVec.extractLsb' n m) h
    have hlow := congrArg (BitVec.extractLsb' 0 n) h
    rw [BitVec.extractLsb'_append_eq_left, BitVec.extractLsb'_append_eq_left] at hhigh
    rw [BitVec.extractLsb'_append_eq_right, BitVec.extractLsb'_append_eq_right] at hlow
    exact ⟨hhigh, hlow⟩
  · rintro ⟨rfl, rfl⟩
    rfl

/-- A row covers the words that are legal for its operation (30_encoding R69). -/
theorem covers_iff_legalFor {r : OpcodeRow} (hr : r ∈ opcodeTable) (c : Command) :
    r.covers c.cmd = true ↔ c.legalFor r.op := by
  obtain ⟨hmask, hpattern⟩ := opcodeTable_row hr
  rw [OpcodeRow.covers, beq_iff_eq, hmask, hpattern, ← Command.cmd_eq_append]
  refine and_append_eq_append_iff.trans ?_
  rw [and_append_eq_append_iff, and_append_eq_append_iff, and_append_eq_append_iff,
    BitVec.and_allOnes, BitVec.and_allOnes, BitVec.and_allOnes, Command.legalFor]
  have hlength : c.lengthField &&& (if r.op.isBool then BitVec.allOnes 8 else 0) = BitVec.ofNat 8 0 ↔
      (r.op.isBool = true → c.lengthField = 0) := by
    cases r.op.isBool
    · simp
    · rw [if_pos rfl, BitVec.and_allOnes]
      simp
  have hoffset : c.offsetField &&& 0#8 = BitVec.ofNat 8 0 := BitVec.and_zero
  tauto

/-- The table has one row for an operation. -/
theorem opcodeTable_op_injective :
    ∀ r ∈ opcodeTable, ∀ q ∈ opcodeTable, r.op = q.op → r = q := by
  decide

/-- The table has a row for every operation (30_encoding R61). -/
theorem exists_row (op : Opcode) : ∃ r ∈ opcodeTable, r.op = op := by
  cases op <;> decide

/-- Settles O16: the decoder and the table's rows accept the same words, those that are legal for an operation. -/
theorem decoderAcceptsExactlyTheTable : Obligations.DecoderAcceptsExactlyTheTable := by
  refine ⟨fun c i h => ?_, fun c e h r hr => ?_, fun w r hr q hq hcr hcq => ?_⟩
  · obtain ⟨op, hlegal, rfl⟩ := decode_eq_ok_iff.1 h
    obtain ⟨r, hr, rfl⟩ := exists_row op
    exact ⟨r, hr, (covers_iff_legalFor hr c).2 hlegal, (c.opcode_instr _).symm⟩
  · refine Bool.eq_false_iff.2 fun hcover => ?_
    have hok := decode_eq_ok_iff.2 ⟨r.op, (covers_iff_legalFor hr c).1 hcover, rfl⟩
    rw [hok] at h
    cases h
  · obtain ⟨hop, -⟩ := (covers_iff_legalFor hr ⟨w, 0, 0, 0⟩).1 hcr
    obtain ⟨hop', -⟩ := (covers_iff_legalFor hq ⟨w, 0, 0, 0⟩).1 hcq
    exact opcodeTable_op_injective r hr q hq (Opcode.bits_injective (hop.symm.trans hop'))

end Sys2Proof

/-! ### Commands that do the same (30_encoding R64) -/

namespace Sys2Proof.Machine

/-- The decoder reads the operand words as the operands of the operation only (30_encoding R64, R65). -/
theorem decode_congr {c d : Command} (hcmd : c.cmd = d.cmd)
    (hinstr : ∀ op, c.op = op.bits → c.instr op = d.instr op) : decode c = decode d := by
  have hop : c.op = d.op := congrArg (BitVec.extractLsb' 0 3) hcmd
  have h0 : c.rsv0 = d.rsv0 := congrArg (BitVec.extractLsb' 3 5) hcmd
  have h1 : c.rsv1 = d.rsv1 := congrArg (BitVec.extractLsb' 24 8) hcmd
  have hl : c.lengthField = d.lengthField := congrArg (BitVec.extractLsb' 16 8) hcmd
  unfold decode
  rw [← hop, ← h0, ← h1, ← hl]
  cases hc : Opcode.ofBits c.op with
  | none => rfl
  | some op =>
    simp only
    rw [hinstr op (Opcode.ofBits_eq_some_iff.1 hc)]

/-- Settles O19: on the operand words that its operation reads, each command assembles the same operands. -/
theorem ignoredOperandWordsHaveNoEffect : Obligations.IgnoredOperandWordsHaveNoEffect := by
  intro s c d hcmd hvalue hbool hscaled
  have ho : c.offsetField = d.offsetField := congrArg (BitVec.extractLsb' 8 8) hcmd
  have hl : c.lengthField = d.lengthField := congrArg (BitVec.extractLsb' 16 8) hcmd
  have hdecode : decode c = decode d := by
    refine decode_congr hcmd fun op hop => ?_
    cases op with
    | decodeBits => simp only [Command.instr, ho, hl]
    | encodeBits => simp only [Command.instr, ho, hl, hvalue (.inl hop)]
    | decodeBool => simp only [Command.instr, ho]
    | encodeBool => simp only [Command.instr, ho, hbool hop]
    | decodeScaled =>
      obtain ⟨hscale, hadd⟩ := hscaled (.inl hop)
      simp only [Command.instr, ho, hl, hscale, hadd]
    | encodeScaled =>
      obtain ⟨hscale, hadd⟩ := hscaled (.inr hop)
      simp only [Command.instr, ho, hl, hvalue (.inr hop), hscale, hadd]
  rw [performCommand, performCommand, hdecode]

/-! ### The step of a command (20_memory R50, R53) -/

/-- The numbered bits of an instruction are decoded as the words of its command (log 11). -/
theorem decodeTableWord_eq_some_iff {nbits w : Nat} {i : Instr} :
    decodeTableWord nbits w = some i ↔ decode (Command.ofTableWord nbits w) = .ok i := by
  rw [decodeTableWord]
  cases decode (Command.ofTableWord nbits w) <;> simp

/-- A step with a legal command at the head performs its instruction. -/
theorem step_command_legal {s : State} {c : Command} {i : Instr} {rest : List HostAction}
    (hs : s.host = .command c :: rest) (hc : decode c = .ok i) :
    step s = exec i { s with host := rest } :=
  (step_action hs).trans (performCommand_legal hc _)

/-- Settles O7: the oldest action is performed, and a command just issued is the oldest. -/
theorem stepPerformsDecodedCommand : Obligations.StepPerformsDecodedCommand :=
  ⟨fun _ _ _ _ => step_command_legal, fun s nbits w _ h =>
    step_command_legal (withFetchWord_host s nbits w) (decodeTableWord_eq_some_iff.1 h)⟩

/-! ### The response of a command (30_encoding R66, R67) -/

/-- Every instruction completes. -/
theorem exec_completes (i : Instr) (s : State) : ∃ t, exec i s = .next t :=
  ⟨_, exec_eq_checked i s⟩

/-- Every command, an illegal one too, completes with one response and leaves the host's actions (60_exceptions R141). -/
theorem performCommand_responds (c : Command) (s : State) :
    ∃ t r, performCommand c s = .next t ∧ t.host = s.host ∧ t.responses = s.responses ++ [r] := by
  cases hc : decode c with
  | error e => exact ⟨_, _, performCommand_illegal hc s, rfl, rfl⟩
  | ok i =>
    obtain ⟨t, ht⟩ := exec_completes i s
    obtain ⟨-, hhost, -, r, hr⟩ := exec_keeps_rest ht
    exact ⟨t, r, (performCommand_legal hc s).trans ht, hhost, hr⟩

/-- Code 7 is never produced (60_exceptions R140). -/
theorem Status.code_toNat_le (st : Status) : st.code.toNat ≤ 6 := by
  cases st <;> decide

/-- `STATUS[2:0]` is the status code (30_encoding R66). -/
theorem statusWord_code (r : Response) : r.statusWord.extractLsb' 0 3 = r.status.code := by
  simp [Response.statusWord, ← BitVec.setWidth_eq_extractLsb']

/-- `STATUS[31:3]` is 0 (30_encoding R66). -/
theorem statusWord_reserved (r : Response) : r.statusWord.extractLsb' 3 29 = 0 := by
  refine BitVec.eq_of_getLsbD_eq fun k _ => ?_
  simp [Response.statusWord]

/-- Settles O10: a step performs the command, which responds, and the word of any status holds its code alone. -/
theorem everyCommandGetsOneResponse : Obligations.EveryCommandGetsOneResponse := by
  refine ⟨rfl, rfl, rfl, rfl, rfl, rfl, rfl, fun s c rest hs => ?_⟩
  obtain ⟨t, r, ht, hhost, hr⟩ := performCommand_responds c { s with host := rest }
  exact ⟨t, r, (step_action hs).trans ht, hhost, hr, statusWord_code r, statusWord_reserved r,
    Status.code_toNat_le r.status⟩

/-! ### The result of a command (30_encoding R67) -/

/-- The one response that a state was given. -/
theorem eq_of_respond {s : State} {st : Status} {x : Word} {r : Response}
    (h : (s.respond st x).responses = s.responses ++ [r]) : r = ⟨st, x⟩ := by
  simpa [eq_comm] using h

/-- A command that completes with OK had no error, and did its effect. -/
theorem exec_ok {i : Instr} {s t : State} {r : Response} (h : exec i s = .next t)
    (hr : t.responses = s.responses ++ [r]) (hok : r.status = .ok) :
    firstError (commandErrors s.frameBytes i) = .ok ∧ t = effect i s := by
  by_cases herr : firstError (commandErrors s.frameBytes i) = .ok
  · rw [exec_without_error herr] at h
    cases h
    exact ⟨herr, rfl⟩
  · rw [exec_with_error herr] at h
    cases h
    rw [eq_of_respond hr] at hok
    exact absurd hok herr

/-- A command that does not complete with OK answers 0 (60_exceptions R141). -/
theorem exec_result_of_ne_ok {i : Instr} {s t : State} {r : Response} (h : exec i s = .next t)
    (hr : t.responses = s.responses ++ [r]) (hok : r.status ≠ .ok) : r.result = 0 := by
  rcases exec_next_cases h with ⟨st, -, rfl⟩ | ⟨x, rfl⟩ | ⟨o, len, v, -, rfl⟩
  · rw [eq_of_respond hr]
  · exact absurd (congrArg Response.status (eq_of_respond hr)) hok
  · rw [respondOk_responses, mergeField_responses] at hr
    exact absurd (congrArg Response.status (eq_of_respond hr)) hok

/-- A command whose effect is a merge answers 0, whatever its status (40_bit_codec R90). -/
theorem exec_merge_result {i : Instr} {s t : State} {o len : Nat} {v : Word} {r : Response}
    (hmerge : effect i s = (mergeField s o len v).respondOk 0) (h : exec i s = .next t)
    (hr : t.responses = s.responses ++ [r]) : r.result = 0 := by
  rcases exec_next_effect_or_raise h with rfl | ⟨st, rfl⟩
  · rw [hmerge, respondOk_responses, mergeField_responses] at hr
    rw [eq_of_respond hr]
  · rw [eq_of_respond hr]

/-- The value of a field is below `2^L` (40_bit_codec R89). -/
theorem readField_lt (s : State) {o len : Nat} (hlen : 1 ≤ len) :
    (readField s o len).toNat < 2 ^ len :=
  Nat.lt_pow_two_of_testBit _ fun _ hi => readField_getLsbD_ge s hlen hi

/-- The value of a field of one bit is the bit at its position (41_field_codec R120). -/
theorem readField_one (s : State) (o : Nat) : readField s o 1 = if s.bitAt o then 1 else 0 := by
  rw [← decodeBool_eq_readField, BitVec.and_one_eq_setWidth_ofBool_getLsbD,
    BitVec.getLsbD_ushiftRight, Nat.add_zero]
  change (BitVec.setWidth 8 (BitVec.ofBool (s.bitAt o))).setWidth 32 = _
  cases s.bitAt o <;> rfl

/-- Settles O54: a status other than OK answers 0, a decode answers its field, and an encode answers 0. -/
theorem resultByOpcode : Obligations.ResultByOpcode := by
  refine ⟨fun s t i r => exec_result_of_ne_ok, fun s t o len r h hr hok => ?_,
    fun s t o r h hr hok => ?_, fun s t o len v sc ad b r h hr => ?_⟩
  · obtain ⟨herr, rfl⟩ := exec_ok h hr hok
    rw [eq_of_respond hr]
    exact readField_lt s (one_le_of_firstError_ok herr)
  · obtain ⟨-, rfl⟩ := exec_ok h hr hok
    rw [eq_of_respond hr]
    exact readField_one s o
  · rcases h with h | h | h <;> exact exec_merge_result rfl h hr

end Sys2Proof.Machine

/-! ### The assembler (30_encoding R71 to R73) -/

namespace Sys2Proof.Machine

/-- Settles O17: the lines and the words are computed, and the two answered commands fail in every state. -/
theorem encodingExamples : Obligations.EncodingExamples := by
  refine ⟨by decide +kernel, rfl, by decide +kernel, rfl, by decide +kernel, rfl, by decide +kernel,
    rfl, by decide +kernel, fun s => ?_, fun v sc ad s => ?_⟩
  · exact performCommand_legal (i := .encodeBits 0 33 7) rfl s
  · exact performCommand_illegal (e := .reservedOpcode) rfl s

/-- Assembling an instruction gives words that decode to it, or rejects it (30_encoding R72). -/
theorem assembleInstr_decodes {i : Instr} {p : Prop} [Decidable p] (hp : i.wellFormed = true ↔ p) :
    if p then
      ∃ c, assembleInstr i = .command c ∧ decode c = .ok i ∧ c.value = (encode i).value ∧
        c.scale = (encode i).scale ∧ c.add = (encode i).add
    else assembleInstr i = .rejected := by
  split
  · have hi := hp.2 ‹p›
    exact ⟨encode i, assembleInstr_wellFormed hi, decodeEncodeAgree i hi, rfl, rfl, rfl⟩
  · exact assembleInstr_illFormed fun hi => absurd (hp.1 hi) ‹¬ p›

/-- A line that starts with `#` is a comment, whatever follows (30_encoding R71). -/
theorem assembleLine_comment (text : List Char) : assembleLine ('#' :: text) = .nothing := by
  obtain ⟨rest, hrest⟩ := trimBlanks_cons (c := '#') (by decide) text
  simp [assembleLine, parseLine, hrest, assemble]

/-! #### A decimal real -/

/-- The number 1 with a sign. -/
def signUnit (neg : Bool) : ℚ := if neg then -1 else 1

/-- The exact value of a finite pattern is its magnitude's, with its sign (93_implementation_defined G1). -/
theorem toRat_finite (neg : Bool) (mag : Nat) :
    (F32.finite neg mag).toRat = signUnit neg * (F32.units mag / 2 ^ 149) := by
  cases neg <;> simp [F32.toRat, F32.signedUnits, signUnit, neg_div]

theorem abs_signUnit (neg : Bool) : |signUnit neg| = 1 := by
  cases neg <;> simp [signUnit]

theorem signUnit_not (neg : Bool) : signUnit (!neg) = -signUnit neg := by
  cases neg <;> simp [signUnit]

/-- How far the value of a magnitude pattern is from that of `n / d` units. -/
def unitsError (n d m : Nat) : ℚ := |(F32.units m : ℚ) / 2 ^ 149 - n / (d * 2 ^ 149)|

theorem cast_mul_two_pow_pos {d : Nat} (hd : 0 < d) : (0 : ℚ) < d * 2 ^ 149 :=
  mul_pos (Nat.cast_pos.2 hd) (by positivity)

/-- The error of a magnitude is the distance that `roundMag_nearest` compares, in parts of `1 / d` unit. -/
theorem unitsError_eq (n m : Nat) {d : Nat} (hd : 0 < d) :
    unitsError n d m = (|(F32.units m : ℤ) * d - n| : ℤ) / (d * 2 ^ 149) := by
  have hd' : (d : ℚ) ≠ 0 := Nat.cast_ne_zero.2 hd.ne'
  have hcommon : (F32.units m : ℚ) / 2 ^ 149 - n / (d * 2 ^ 149) =
      (F32.units m * d - n) / (d * 2 ^ 149) := by field_simp
  rw [unitsError, hcommon, abs_div, abs_of_pos (cast_mul_two_pow_pos hd)]
  push_cast
  rfl

/-- No magnitude is nearer than the one `roundMag` answers, and another one as near shows that it is even (93 G2). -/
theorem unitsError_roundMag_le (n m : Nat) {d : Nat} (hd : 0 < d) :
    unitsError n d (F32.roundMag n d) ≤ unitsError n d m ∧
    (unitsError n d (F32.roundMag n d) = unitsError n d m → m ≠ F32.roundMag n d →
      F32.roundMag n d % 2 = 0) := by
  have hunit := cast_mul_two_pow_pos hd
  obtain ⟨hnear, htie⟩ := roundMag_nearest n d m hd
  rw [unitsError_eq n _ hd, unitsError_eq n _ hd, div_le_div_iff_of_pos_right hunit,
    div_left_inj' hunit.ne', Int.cast_le, Int.cast_inj]
  exact ⟨hnear, htie⟩

/-- A finite value of the sign rounded with is as far as its magnitude is. -/
theorem abs_toRat_sub_same (neg : Bool) (m n d : Nat) :
    |(F32.finite neg m).toRat - signUnit neg * (n / (d * 2 ^ 149))| = unitsError n d m := by
  rw [toRat_finite, ← mul_sub, abs_mul, abs_signUnit, one_mul, unitsError]

/-- A finite value of the other sign is at least as far as 0 is. -/
theorem unitsError_zero_le_abs_toRat_sub (neg : Bool) (m n d : Nat) :
    unitsError n d 0 ≤ |(F32.finite (!neg) m).toRat - signUnit neg * (n / (d * 2 ^ 149))| := by
  have hflip : (F32.finite (!neg) m).toRat - signUnit neg * (n / (d * 2 ^ 149)) =
      -signUnit neg * (F32.units m / 2 ^ 149 + n / (d * 2 ^ 149)) := by
    rw [toRat_finite, signUnit_not]
    ring
  have hm : (0 : ℚ) ≤ F32.units m / 2 ^ 149 := by positivity
  have hx : (0 : ℚ) ≤ n / (d * 2 ^ 149) := by positivity
  have hzero : F32.units 0 = 0 := units_small (by decide)
  rw [hflip, abs_mul, abs_neg, abs_signUnit, one_mul, abs_of_nonneg (by positivity), unitsError, hzero,
    Nat.cast_zero, zero_div, zero_sub, abs_neg, abs_of_nonneg hx]
  exact le_add_of_nonneg_left hm

/-- `F32.round` answers the value that the exact one rounds to, to nearest with ties to even (41_field_codec R110). -/
theorem round_roundsTo (neg : Bool) (n : Nat) {d : Nat} (hd : 0 < d) :
    roundsTo (signUnit neg * (n / (d * 2 ^ 149))) (F32.round neg n d) := by
  have hunit := cast_mul_two_pow_pos hd
  have habs : |signUnit neg * ((n : ℚ) / (d * 2 ^ 149))| = (n : ℚ) / (d * 2 ^ 149) := by
    rw [abs_mul, abs_signUnit, one_mul, abs_of_nonneg (by positivity)]
  -- the magnitude is that of an infinity exactly from the midpoint above the largest finite value
  have hover : F32.infMag ≤ F32.roundMag n d ↔ (2 ^ 25 - 1) * 2 ^ 103 ≤ (n : ℚ) / (d * 2 ^ 149) := by
    rw [infMag_le_roundMag_iff n d hd, le_div_iff₀ hunit, ← Nat.cast_le (α := ℚ)]
    push_cast
    ring_nf
  unfold F32.round
  split
  · rename_i hfinite
    refine ⟨?_, hfinite, fun neg' m _ => ?_⟩
    · rw [habs, ← not_le, ← hover]
      exact hfinite.not_ge
    · rw [abs_toRat_sub_same]
      by_cases hneg : neg' = neg
      · subst hneg
        rw [abs_toRat_sub_same]
        obtain ⟨hnear, htie⟩ := unitsError_roundMag_le n m hd
        exact ⟨hnear, fun heq hne => htie heq fun hm => hne (hm ▸ rfl)⟩
      · obtain rfl : neg' = !neg := Bool.eq_not.2 hneg
        have hzero := unitsError_zero_le_abs_toRat_sub neg m n d
        obtain ⟨hnear, htie⟩ := unitsError_roundMag_le n 0 hd
        refine ⟨hnear.trans hzero, fun heq _ => ?_⟩
        -- as near as a value of the other sign is as near as 0
        by_cases hmag : F32.roundMag n d = 0
        · rw [hmag]
        · exact htie (le_antisymm hnear (heq ▸ hzero)) (Ne.symm hmag)
  · rename_i hinf
    have hbig := hover.1 (not_lt.1 hinf)
    have hpos : (0 : ℚ) < n / (d * 2 ^ 149) := lt_of_lt_of_le (by norm_num) hbig
    refine ⟨hbig.trans_eq habs.symm, ?_⟩
    cases neg
    · simpa [signUnit] using hpos.le
    · simpa [signUnit] using hpos

/-- A decimal real is rounded to nearest, ties to even (30_encoding R71). -/
theorem decimal_roundsTo (neg : Bool) (digits places : Nat) :
    roundsTo (signUnit neg * ((digits : ℚ) / 10 ^ places))
      (F32.ofBits (RealLit.decimal neg digits places).word) := by
  have hone : (F32.one : ℚ) = 2 ^ 149 := by norm_num [F32.one]
  rw [RealLit.word, ofBits_toBits (round_valid _ _ _)]
  convert round_roundsTo neg (digits * F32.one) (Nat.pow_pos (n := places) (by decide : 0 < 10)) using 2
  rw [Nat.cast_mul, hone, Nat.cast_pow, Nat.cast_ofNat, mul_div_mul_right _ _ (by positivity)]

/-- Settles O20: a line is assembled from its instruction's words, which decode to it. -/
theorem assembledLineDecodes : Obligations.AssembledLineDecodes := by
  refine ⟨fun o l => ?_, fun v o l => ?_, fun o => ?_, fun o b => ?_, fun o l sc ad => ?_,
    fun o l sc ad x => ?_, fun c v sc ad => ?_, fun tc tv ts ta c v sc ad hc hv hs ha => ?_,
    fun text => assembleLine_comment _, decimal_roundsTo, fun _ => rfl⟩
  · exact assembleInstr_decodes (by simp [Instr.wellFormed])
  · by_cases hv : v < 2 ^ 32
    · have hline : assemble (.encodeBits v o l) = assembleInstr (.encodeBits o l (BitVec.ofNat 32 v)) :=
        if_pos (fitsWord_eq_true.2 hv)
      simp only [hline, hv, true_and]
      exact assembleInstr_decodes (by simp [Instr.wellFormed])
    · rw [if_neg fun h => hv h.1]
      exact if_neg (mt fitsWord_eq_true.1 hv)
  · exact assembleInstr_decodes (by simp [Instr.wellFormed])
  · exact assembleInstr_decodes (by simp [Instr.wellFormed])
  · exact assembleInstr_decodes (by simp [Instr.wellFormed])
  · exact assembleInstr_decodes (by simp [Instr.wellFormed])
  · simp only [assemble, Bool.and_eq_true, fitsWord_eq_true, and_assoc]
    split <;> rfl
  · simp [lineOf, hc, hv, hs, ha]

end Sys2Proof.Machine

/-! ### The geometry of a field (40_bit_codec R80 to R82) -/

namespace Sys2Proof.Machine

/-- The bits of a chunk are the positions of the field in its byte (40_bit_codec R81). -/
theorem chunkAt_bits (o e k base : Nat) :
    (chunkAt o e k base).bits = min e (8 * k + 8) - max o (8 * k) := rfl

/-- The chunks of the bytes `k` to `k + count - 1` hold a bit for each position of the field [o, e) in those bytes. -/
theorem sum_bits_chunksFrom (o e : Nat) {k : Nat} (hk : o / 8 ≤ k) (count base : Nat) :
    ((chunksFrom o e count k base).map Chunk.bits).sum = min e (8 * (k + count)) - max o (8 * k) := by
  induction count generalizing k base with
  | zero =>
    rw [chunksFrom, List.map_nil, List.sum_nil]
    omega
  | succ n ih =>
    rw [chunksFrom, List.map_cons, List.sum_cons, ih (Nat.le_succ_of_le hk), chunkAt_bits]
    omega

/-- A field has one chunk for each of its bytes, and there are `((o mod 8) + L + 7) div 8` of them (40_bit_codec R87). -/
theorem length_fieldChunks {o len : Nat} (hlen : 1 ≤ len) :
    (fieldChunks o len).length = (o % 8 + len + 7) / 8 := by
  rw [fieldChunks_eq hlen, List.length_map, List.length_range']
  omega

/-- Settles O21: the bits of the chunks add up byte by byte, and a chunk is the part of the field in its byte. -/
theorem chunksPartitionTheField : Obligations.ChunksPartitionTheField := by
  intro o len hlen
  have hcount := length_fieldChunks (o := o) hlen
  refine ⟨?_, ?_, hcount, fun h32 => ?_, fun c hc => ?_⟩
  · rw [fieldChunks, startByte, lastByte, sum_bits_chunksFrom o _ (le_refl _)]
    omega
  · rfl
  · rw [hcount]
    omega
  · obtain ⟨k, hfirst, hlast, rfl⟩ := mem_fieldChunks hlen hc
    simp only [chunkAt]
    omega

/-- Settles O22: the last position of a field with an 8-bit offset is 286 at most, in byte 35. -/
theorem fieldTouchesExistingBytesOnly : Obligations.FieldTouchesExistingBytesOnly := by
  rintro o len n ⟨hlen, h32, hend⟩ c hc
  exact ⟨fieldChunks_byte_lt hlen hend hc, fun ho => fieldChunks_byte_lt hlen (by omega) hc⟩

/-- Settles O23: in each byte of the field, both forms count the value bits up from `8 k - o` as the position goes down. -/
theorem bitMappingIsABijection : Obligations.BitMappingIsABijection := by
  intro o len hlen
  refine ⟨fun c hc j hj => ?_, fun _ => valueBit_lt, fun _ hp _ hq => valueBit_inj hp hq,
    fun _ => valueBit_surj⟩
  obtain ⟨k, hfirst, hlast, rfl⟩ := mem_fieldChunks hlen hc
  simp only [chunkAt, inField, valueBit] at hj ⊢
  omega

end Sys2Proof.Machine

/-! ### DECODE_BITS (40_bit_codec R82 to R89) -/

namespace Sys2Proof.Machine

/-- A legal field passes the checks of length and bounds (60_exceptions R142, R143). -/
theorem firstError_of_fieldLegal {o len n : Nat} (h : fieldLegal o len n) :
    firstError [(.invalidLength, decide (len = 0 ∨ len > 32)), (.outOfBounds, decide (o + len > 8 * n))] =
      .ok := by
  obtain ⟨hlen, h32, hend⟩ := h
  have hlength : ¬ (len = 0 ∨ len > 32) := by omega
  simp [firstError, hlength, hend]

/-- DECODE_BITS of a legal field completes and answers the field's value. -/
theorem exec_decodeBits_of_fieldLegal {s : State} {o len : Nat} (h : fieldLegal o len s.frameBytes) :
    exec (.decodeBits o len) s = .next (s.respondOk (readField s o len)) :=
  exec_without_error (firstError_of_fieldLegal h)

/-- Settles O24: the answer is the value of the field, known bit by bit. -/
theorem decodeBitsReturnsTheField : Obligations.DecodeBitsReturnsTheField := by
  intro s o len h
  have ⟨hlen, h32, _⟩ := h
  exact ⟨_, exec_decodeBits_of_fieldLegal h, fun _ => readField_valueBit s h32, readField_lt s hlen⟩

/-! #### A field inside one byte -/

/-- A field inside one byte has one chunk (40_bit_codec R84). -/
theorem fieldChunks_of_one_byte {o len : Nat} (hlen : 1 ≤ len) (hbyte : o / 8 = (o + len - 1) / 8) :
    fieldChunks o len =
      [{ byte := o / 8, bits := len, shift := 8 - o % 8 - len, base := 0 }] := by
  rw [fieldChunks_eq hlen, ← hbyte, Nat.sub_self, List.range'_one, List.map_singleton, chunkAt]
  congr 2 <;> omega

/-- The value of a field inside one byte (40_bit_codec R84). -/
theorem readField_of_one_byte (s : State) {o len : Nat} (hlen : 1 ≤ len)
    (hbyte : o / 8 = (o + len - 1) / 8) :
    readField s o len =
      (s.memRead (o / 8) >>> (8 - o % 8 - len) &&& mask 8 len).setWidth 32 := by
  simp [readField, fieldChunks_of_one_byte hlen hbyte, Chunk.extract]

/-- Settles O25: the value of such a field is that of its one chunk. -/
theorem decodeBitsInsideOneByte : Obligations.DecodeBitsInsideOneByte := by
  intro s o len h hbyte
  have ⟨hlen, _⟩ := h
  rw [exec_decodeBits_of_fieldLegal h, readField_of_one_byte s hlen hbyte]

/-- A whole byte, as a field, has the byte as its value (40_bit_codec R86). -/
theorem readField_whole_byte (s : State) (k : Nat) :
    readField s (8 * k) 8 = (s.memRead k).setWidth 32 := by
  have hmask : mask 8 8 = BitVec.allOnes 8 := rfl
  rw [readField_of_one_byte s (by decide) (by omega), hmask, BitVec.and_allOnes,
    Nat.mul_div_cancel_left k (by decide), Nat.mul_mod_right]
  rfl

/-! #### A field cut at a byte boundary -/

/-- A field that is cut at a byte boundary: the value of its second part stands above the value of its first part
(40_bit_codec R82). -/
theorem readField_append (s : State) {o a b : Nat} (ha : 1 ≤ a) (hb : 1 ≤ b) (hab : a + b ≤ 32)
    (hcut : (o + a) % 8 = 0) :
    readField s o (a + b) = readField s o a ||| readField s (o + a) b <<< a := by
  refine word_ext_field (o := o) (len := a + b) (fun i => readField_getLsbD_ge s (by omega))
    (fun i hi => ?_) fun p hp => ?_
  · rw [BitVec.getLsbD_or, BitVec.getLsbD_shiftLeft, readField_getLsbD_ge s ha (by omega),
      readField_getLsbD_ge s hb (by omega), Bool.and_false, Bool.or_false]
  · have hbit := valueBit_lt hp
    rw [readField_valueBit s hab hp, BitVec.getLsbD_or, BitVec.getLsbD_shiftLeft]
    by_cases hfirst : inField o a p
    · have hp' : valueBit o (a + b) p = valueBit o a p := by
        simp only [valueBit, inField] at hfirst ⊢
        omega
      have hlow := valueBit_lt hfirst
      rw [hp', readField_valueBit s (by omega) hfirst]
      simp [hlow]
    · have hsecond : inField (o + a) b p := by
        simp only [inField] at hp hfirst ⊢
        omega
      have hp' : valueBit o (a + b) p = a + valueBit (o + a) b p := by
        simp only [valueBit, inField] at hsecond ⊢
        omega
      rw [hp'] at hbit ⊢
      have hword : a + valueBit (o + a) b p < 32 := hbit.trans_le hab
      rw [readField_getLsbD_ge s ha (Nat.le_add_right _ _), Nat.add_sub_cancel_left,
        readField_valueBit s (by omega) hsecond]
      simp [hword]

/-- The next whole byte stands above the value of the field before it (40_bit_codec R83, R86). -/
theorem readField_append_byte (s : State) {o a k : Nat} (ha : 1 ≤ a) (h32 : a + 8 ≤ 32)
    (hk : o + a = 8 * k) :
    readField s o (a + 8) = readField s o a ||| (s.memRead k).setWidth 32 <<< a := by
  rw [readField_append s ha (by decide) h32 (by omega), hk, readField_whole_byte]

/-- A byte put above a number below `2^k` is added to it at `2^k`. -/
theorem toNat_or_byte_shiftLeft {x : Word} {k : Nat} (hx : x.toNat < 2 ^ k) (hk : k + 8 ≤ 32) (b : Byte) :
    (x ||| b.setWidth 32 <<< k).toNat = x.toNat + b.toNat * 2 ^ k := by
  have hfit : b.toNat * 2 ^ k < 2 ^ 32 :=
    calc b.toNat * 2 ^ k
      _ < 2 ^ 8 * 2 ^ k := Nat.mul_lt_mul_of_pos_right b.isLt (by positivity)
      _ ≤ 2 ^ 32 := by rw [← pow_add]; exact Nat.pow_le_pow_right (by decide) (by omega)
  rw [BitVec.toNat_or, BitVec.toNat_shiftLeft, BitVec.toNat_setWidth_of_le (by decide), Nat.shiftLeft_eq,
    Nat.mod_eq_of_lt hfit, ← Nat.shiftLeft_eq, Nat.or_comm, ← Nat.shiftLeft_add_eq_or_of_lt hx,
    Nat.add_comm]

/-- The value of whole bytes is their little-endian integer (40_bit_codec R86). -/
theorem readField_whole_bytes (s : State) (a : Nat) {b : Nat} (hb : 1 ≤ b) (h4 : b ≤ 4) :
    (readField s (8 * a) (8 * b)).toNat =
      ((List.range b).map fun j => (s.memRead (a + j)).toNat * 2 ^ (8 * j)).sum := by
  induction b, hb using Nat.le_induction with
  | base =>
    rw [Nat.mul_one, readField_whole_byte, BitVec.toNat_setWidth_of_le (by decide)]
    simp
  | succ b hb ih =>
    rw [Nat.mul_succ, readField_append_byte s (k := a + b) (by omega) (by omega) (by omega),
      toNat_or_byte_shiftLeft (readField_lt s (by omega)) (by omega), ih (by omega),
      List.range_succ, List.map_append, List.sum_append, List.map_singleton, List.sum_singleton]

/-- Settles O26, by adding one whole byte after another. -/
theorem decodeBitsByteAlignedIsLittleEndian : Obligations.DecodeBitsByteAlignedIsLittleEndian := by
  intro s a b hb h4 hend
  exact ⟨_, exec_decodeBits_of_fieldLegal ⟨by omega, by omega, by omega⟩, readField_whole_bytes s a hb h4⟩

/-! #### The source's step list (40_bit_codec R83) -/

/-- The start mask is `mask(8 - r)` (40_bit_codec R83, R94). -/
theorem startMask_eq : ∀ r < 8, 0xFF#8 >>> r = mask 8 (8 - r) := by decide

/-- The stop mask, shifted down, is `mask(used)` (40_bit_codec R83, R94). -/
theorem stopMask_ushiftRight : ∀ used < 8, (~~~(0xFF#8 >>> used)) >>> (8 - used) = mask 8 used := by
  decide

/-- The first step reads the field's part in its start byte. -/
theorem startStep_eq_readField (s : State) (o : Nat) :
    (s.memRead (o / 8) &&& (0xFF#8 >>> (o % 8))).setWidth 32 = readField s o (8 - o % 8) := by
  have hr : o % 8 < 8 := Nat.mod_lt o (by decide)
  rw [readField_of_one_byte s (by omega) (by omega), startMask_eq _ hr, Nat.sub_self,
    BitVec.ushiftRight_zero]

/-- The middle step reads the field on to the end of its whole bytes. -/
theorem sourceMiddle_eq_readField (s : State) {o a k : Nat} (count : Nat) (ha : 1 ≤ a)
    (h32 : a + 8 * count ≤ 32) (hk : o + a = 8 * k) :
    sourceMiddle s count k a (readField s o a) = readField s o (a + 8 * count) := by
  induction count generalizing a k with
  | zero => rfl
  | succ n ih =>
    rw [sourceMiddle, ← readField_append_byte s ha (by omega) hk, ih (by omega) (by omega) (by omega)]
    congr 1
    omega

/-- The last step reads the top `used` bits of its byte. -/
theorem stopStep_eq_readField (s : State) {k used : Nat} (h1 : 1 ≤ used) (h8 : used < 8) :
    ((s.memRead k &&& ~~~(0xFF#8 >>> used)) >>> (8 - used)).setWidth 32 = readField s (8 * k) used := by
  rw [readField_of_one_byte s h1 (by omega), BitVec.ushiftRight_and_distrib, stopMask_ushiftRight _ h8,
    Nat.mul_div_cancel_left k (by decide), Nat.mul_mod_right, Nat.sub_zero]

/-- The source's step list computes the value of a field over more than one byte (40_bit_codec R83). -/
theorem sourceField_eq_readField (s : State) {o len : Nat} (h32 : len ≤ 32)
    (hbytes : o / 8 < (o + len - 1) / 8) : sourceField s o len = readField s o len := by
  have hmiddle := sourceMiddle_eq_readField s (o := o) (a := 8 - o % 8) (k := o / 8 + 1)
    ((o + len) / 8 - (o / 8 + 1)) (by omega) (by omega) (by omega)
  simp only [sourceField, startStep_eq_readField, hmiddle]
  split
  · congr 1
    omega
  · rename_i hused
    have hstop : o + (8 - o % 8 + 8 * ((o + len) / 8 - (o / 8 + 1))) = 8 * ((o + len) / 8) := by omega
    rw [stopStep_eq_readField s (by omega) (by omega), ← hstop,
      ← readField_append s (by omega) (by omega) (by omega) (by omega)]
    congr 1
    omega

/-- Settles O27: the steps cut the field at its byte boundaries. -/
theorem sourceStepListGivesTheField : Obligations.SourceStepListGivesTheField := by
  intro s o len h hbytes
  have ⟨_, h32, _⟩ := h
  rw [exec_decodeBits_of_fieldLegal h, sourceField_eq_readField s h32 hbytes]

/-! #### A decode reads its field only -/

/-- A command that passes the length check has a field of 1 to 32 bits (60_exceptions R142). -/
theorem length_of_firstError_ok {len : Nat} {errors : List (Status × Bool)}
    (h : firstError ((.invalidLength, decide (len = 0 ∨ len > 32)) :: errors) = .ok) :
    1 ≤ len ∧ len ≤ 32 := by
  refine ⟨one_le_of_firstError_ok h, ?_⟩
  by_contra hlen
  have hinvalid : len = 0 ∨ len > 32 := .inr (not_le.1 hlen)
  simp [firstError, hinvalid] at h

/-- The command adds the same response to `s` and to `t`, and does nothing else to either. -/
def sameAnswer (i : Instr) (s t : State) : Prop :=
  ∃ st r, exec i s = .next (s.respond st r) ∧ exec i t = .next (t.respond st r)

/-- A command whose effect is an answer that the field's value decides gives the same answer on frames that agree at
the positions of the field (40_bit_codec R88). -/
theorem sameAnswer_of_field {i : Instr} {o len : Nat} {f : Word → Word}
    (heffect : ∀ u, effect i u = u.respondOk (f (readField u o len)))
    (hlength : ∀ n, firstError (commandErrors n i) = .ok → 1 ≤ len ∧ len ≤ 32) {s t : State}
    (hbytes : s.frameBytes = t.frameBytes) (hbits : ∀ p, inField o len p → s.bitAt p = t.bitAt p) :
    sameAnswer i s t := by
  by_cases hok : firstError (commandErrors s.frameBytes i) = .ok
  · obtain ⟨hlen, h32⟩ := hlength _ hok
    refine ⟨.ok, f (readField s o len), ?_, ?_⟩
    · rw [exec_without_error hok, heffect]
      rfl
    · rw [exec_without_error (hbytes ▸ hok), heffect, readField_congr hlen h32 hbits]
      rfl
  · refine ⟨_, 0, exec_with_error hok, ?_⟩
    rw [hbytes] at hok ⊢
    exact exec_with_error hok

/-- Settles O28: the effect of each decode command is an answer that the value of its field decides. -/
theorem decodeDependsOnFieldBitsOnly : Obligations.DecodeDependsOnFieldBitsOnly := by
  refine ⟨fun s t o len hbytes hbits => ?_, fun s t o hbytes hbit => ?_,
    fun s t o len sc ad hbytes hbits => ?_⟩
  · exact sameAnswer_of_field (i := .decodeBits o len) (f := id) (fun _ => rfl) (fun _ => length_of_firstError_ok)
      hbytes hbits
  · refine sameAnswer_of_field (i := .decodeBool o) (len := 1) (f := id) (fun _ => rfl)
      (fun _ _ => by decide) hbytes fun p hp => ?_
    obtain rfl : p = o := by omega
    exact hbit
  · exact sameAnswer_of_field (i := .decodeScaled o len sc ad)
      (f := fun raw => (physical raw (.ofBits sc) (.ofBits ad)).toBits)
      (fun _ => rfl) (fun _ => length_of_firstError_ok) hbytes hbits

end Sys2Proof.Machine

/-! ### ENCODE_BITS (40_bit_codec R90 to R93) -/

namespace Sys2Proof.Machine

/-- ENCODE_BITS of a legal field completes, merges the value and answers 0. -/
theorem exec_encodeBits_of_fieldLegal {s : State} {o len : Nat} (v : Word)
    (h : fieldLegal o len s.frameBytes) :
    exec (.encodeBits o len v) s = .next ((mergeField s o len v).respondOk 0) :=
  exec_without_error (firstError_of_fieldLegal h)

/-- DECODE_BITS after an ENCODE_BITS of the same legal field answers the field's value in the merged frame. -/
theorem exec_decodeBits_after_merge {s : State} {o len : Nat} (v : Word)
    (h : fieldLegal o len s.frameBytes) :
    exec (.decodeBits o len) ((mergeField s o len v).respondOk 0) =
      .next (((mergeField s o len v).respondOk 0).respondOk (readField (mergeField s o len v) o len)) := by
  refine exec_decodeBits_of_fieldLegal ?_
  rwa [respondOk_frameBytes, mergeField_frameBytes]

/-- Settles O30: a merge is known bit by bit, and leaves what is not the frame. -/
theorem encodeBitsMergesTheField : Obligations.EncodeBitsMergesTheField := by
  intro s o len v h
  have ⟨hlen, h32, _⟩ := h
  exact ⟨_, exec_encodeBits_of_fieldLegal v h, by simp, by simp, by simp, by simp,
    bitAt_mergeField s v hlen h32⟩

/-- The field's value after a merge is the old value with the low `L` bits merged added (40_bit_codec R91). -/
theorem readField_mergeField (s : State) {o len : Nat} (v : Word) (hlen : 1 ≤ len) (h32 : len ≤ 32) :
    readField (mergeField s o len v) o len = readField s o len ||| (v &&& mask 32 len) := by
  refine word_ext_field (o := o) (fun _ => readField_getLsbD_ge _ hlen) (fun i hi => ?_) fun p hp => ?_
  · rw [BitVec.getLsbD_or, readField_getLsbD_ge s hlen hi]
    simp [hi]
  · have hbit := valueBit_lt hp
    rw [readField_valueBit _ h32 hp, bitAt_mergeField s v hlen h32, BitVec.getLsbD_or,
      readField_valueBit s h32 hp, BitVec.getLsbD_and, getLsbD_mask, decide_eq_true hp,
      decide_eq_true hbit, decide_eq_true (hbit.trans_le h32), Bool.true_and, Bool.and_true,
      Bool.and_true]

/-- Settles O32: the answers are the field's value before and after the merge. -/
theorem mergeLaw : Obligations.MergeLaw := by
  intro s o len v h
  have ⟨hlen, h32, _⟩ := h
  refine ⟨_, _, exec_decodeBits_of_fieldLegal h, exec_encodeBits_of_fieldLegal v h, ?_⟩
  rw [exec_decodeBits_after_merge v h, readField_mergeField s v hlen h32]

/-- A field whose positions all hold 0 has the value 0. -/
theorem readField_eq_zero {s : State} {o len : Nat} (hlen : 1 ≤ len) (h32 : len ≤ 32)
    (hzero : ∀ p, inField o len p → s.bitAt p = false) : readField s o len = 0#32 := by
  refine word_ext_field (o := o) (fun _ => readField_getLsbD_ge s hlen) (fun _ _ => BitVec.getLsbD_zero)
    fun p hp => ?_
  rw [readField_valueBit s h32 hp, hzero p hp]
  exact BitVec.getLsbD_zero.symm

/-- A value below `2^n` is its own low `n` bits (40_bit_codec R94). -/
theorem and_mask_of_lt {v : Word} {n : Nat} (hv : v.toNat < 2 ^ n) : v &&& mask 32 n = v := by
  refine BitVec.eq_of_getLsbD_eq fun i hi => ?_
  rw [BitVec.getLsbD_and, getLsbD_mask, decide_eq_true hi, Bool.true_and]
  by_cases hin : i < n
  · rw [decide_eq_true hin, Bool.and_true]
  · have hbit : v.getLsbD i = false :=
      Nat.testBit_lt_two_pow (hv.trans_le (Nat.pow_le_pow_right (by decide) (not_lt.1 hin)))
    rw [hbit, Bool.false_and]

/-- Settles O33: merged into the value 0, the value is the answer. -/
theorem encodeDecodeRoundTrip : Obligations.EncodeDecodeRoundTrip := by
  intro s o len v h hv hzero
  have ⟨hlen, h32, _⟩ := h
  refine ⟨_, exec_encodeBits_of_fieldLegal v h, ?_⟩
  rw [exec_decodeBits_after_merge v h, readField_mergeField s v hlen h32,
    readField_eq_zero hlen h32 hzero, and_mask_of_lt hv, BitVec.zero_or]

/-! #### What ENCODE_BITS leaves -/

/-- An ENCODE_BITS raises a status, or merges a field of 1 to 32 bits. -/
theorem exec_encodeBits_cases {s t : State} {o len : Nat} {v : Word}
    (h : exec (.encodeBits o len v) s = .next t) :
    (∃ st, t = s.raise st) ∨ 1 ≤ len ∧ len ≤ 32 ∧ t = (mergeField s o len v).respondOk 0 := by
  by_cases hok : firstError (commandErrors s.frameBytes (.encodeBits o len v)) = .ok
  · rw [exec_without_error hok] at h
    cases h
    obtain ⟨hlen, h32⟩ := length_of_firstError_ok hok
    exact .inr ⟨hlen, h32, rfl⟩
  · rw [exec_with_error hok] at h
    cases h
    exact .inl ⟨_, rfl⟩

/-- An ENCODE_BITS leaves the bytes outside those of its field (40_bit_codec R93). -/
theorem exec_encodeBits_memRead {s t : State} {o len k : Nat} {v : Word}
    (h : exec (.encodeBits o len v) s = .next t) (hk : k < o / 8 ∨ (o + len - 1) / 8 < k) :
    t.memRead k = s.memRead k := by
  rcases exec_encodeBits_cases h with ⟨st, rfl⟩ | ⟨hlen, -, rfl⟩
  · rfl
  · exact memRead_mergeField_outside s v hlen hk

/-- An ENCODE_BITS leaves the positions outside its field (40_bit_codec R93). -/
theorem exec_encodeBits_bitAt {s t : State} {o len p : Nat} {v : Word}
    (h : exec (.encodeBits o len v) s = .next t) (hp : ¬ inField o len p) : t.bitAt p = s.bitAt p := by
  rcases exec_encodeBits_cases h with ⟨st, rfl⟩ | ⟨hlen, h32, rfl⟩
  · rfl
  · rw [respondOk_bitAt, bitAt_mergeField s v hlen h32, decide_eq_false hp, Bool.false_and,
      Bool.or_false]

/-- Settles O35: a decode reads its own positions only, and the encode leaves all of them. -/
theorem encodeLeavesDisjointFields : Obligations.EncodeLeavesDisjointFields := by
  intro s t o len o' len' v h
  have hbytes : s.frameBytes = t.frameBytes := (exec_keeps_rest h).1.symm
  have hbit : ∀ p, ¬ inField o len p → s.bitAt p = t.bitAt p := fun p hp =>
    (exec_encodeBits_bitAt h hp).symm
  obtain ⟨hbits, hbool, hscaled⟩ := decodeDependsOnFieldBitsOnly
  refine ⟨fun k => exec_encodeBits_memRead h, fun p => exec_encodeBits_bitAt h, fun hdisjoint => ?_,
    fun ho => hbool s t o' hbytes (hbit o' ho)⟩
  have hfield : ∀ p, inField o' len' p → s.bitAt p = t.bitAt p := fun p hp =>
    hbit p fun hin => hdisjoint p hin hp
  exact ⟨hbits s t o' len' hbytes hfield, fun sc ad => hscaled s t o' len' sc ad hbytes hfield⟩

end Sys2Proof.Machine

/-! ### Boolean fields (41_field_codec R120, R121, R126) -/

namespace Sys2Proof.Machine

/-- A position of the frame is a legal field of one bit. -/
theorem fieldLegal_one {o n : Nat} (h : o < 8 * n) : fieldLegal o 1 n :=
  ⟨le_refl 1, by decide, h⟩

/-- A position of the frame passes the bounds check, the only one of a boolean command (60_exceptions R143). -/
theorem firstError_of_position {o n : Nat} (h : o < 8 * n) :
    firstError [(.outOfBounds, decide (o + 1 > 8 * n))] = .ok := by
  have hin : ¬ o + 1 > 8 * n := by omega
  simp [firstError, hin]

theorem exec_decodeBool_of_position {s : State} {o : Nat} (h : o < 8 * s.frameBytes) :
    exec (.decodeBool o) s = .next (s.respondOk (readField s o 1)) :=
  exec_without_error (firstError_of_position h)

theorem exec_encodeBool_of_position {s : State} {o : Nat} (b : Bool) (h : o < 8 * s.frameBytes) :
    exec (.encodeBool o b) s = .next ((mergeField s o 1 (boolWord b)).respondOk 0) :=
  exec_without_error (firstError_of_position h)

/-- Settles O37: the field of one bit at `o` has the bit at `o` as its value. -/
theorem decodeBoolReadsThePosition : Obligations.DecodeBoolReadsThePosition := by
  intro s o h
  rw [exec_decodeBool_of_position h, exec_decodeBits_of_fieldLegal (fieldLegal_one h), readField_one]
  exact ⟨rfl, rfl⟩

@[simp] theorem boolWord_getLsbD_zero (b : Bool) : (boolWord b).getLsbD 0 = b := by
  cases b <;> rfl

/-- A merge of a boolean adds it by OR to the bit at its position (41_field_codec R121). -/
theorem bitAt_mergeField_boolWord (s : State) (o : Nat) (b : Bool) (p : Nat) :
    (mergeField s o 1 (boolWord b)).bitAt p = (s.bitAt p || (decide (p = o) && b)) := by
  rw [bitAt_mergeField s _ (le_refl 1) (by decide)]
  by_cases hp : p = o
  · have hin : inField o 1 p := by omega
    have hbit : valueBit o 1 p = 0 := Nat.lt_one_iff.1 (valueBit_lt hin)
    rw [decide_eq_true hin, decide_eq_true hp, hbit, boolWord_getLsbD_zero]
  · have hout : ¬ inField o 1 p := by omega
    rw [decide_eq_false hout, decide_eq_false hp, Bool.false_and, Bool.false_and]

/-- A merge of false writes back the byte it read (41_field_codec R121). -/
theorem mergeField_boolWord_false_sameFrame (s : State) (o : Nat) :
    sameFrame (mergeField s o 1 (boolWord false)) s := fun j => by
  rw [← encodeBool_eq_mergeField, memRead_memWrite]
  split
  · next h => simp [h]
  · rfl

/-- Settles O38: the merge of a boolean is known bit by bit, and that of false byte by byte. -/
theorem encodeBoolSetsThePosition : Obligations.EncodeBoolSetsThePosition := by
  intro s o b h
  refine ⟨_, exec_encodeBool_of_position b h, by simp, bitAt_mergeField_boolWord s o b, ?_⟩
  rintro rfl
  exact mergeField_boolWord_false_sameFrame s o

/-- A command whose effect is a merge leaves the positions outside its field, on an error path too. -/
theorem exec_merge_bitAt {i : Instr} {s t : State} {o len p : Nat} {v : Word}
    (h : exec i s = .next t) (hmerge : effect i s = (mergeField s o len v).respondOk 0)
    (hlength : ∀ n, firstError (commandErrors n i) = .ok → 1 ≤ len ∧ len ≤ 32)
    (hp : ¬ inField o len p) : t.bitAt p = s.bitAt p := by
  by_cases hok : firstError (commandErrors s.frameBytes i) = .ok
  · obtain ⟨hlen, h32⟩ := hlength _ hok
    rw [exec_without_error hok, hmerge] at h
    cases h
    rw [respondOk_bitAt, bitAt_mergeField s v hlen h32, decide_eq_false hp, Bool.false_and,
      Bool.or_false]
  · rw [exec_with_error hok] at h
    cases h
    rfl

/-- Settles O39: each encode leaves the positions outside its field, and each decode reads its own positions only. -/
theorem booleanFieldIndependence : Obligations.BooleanFieldIndependence := by
  obtain ⟨hbits, hbool, hscaled⟩ := decodeDependsOnFieldBitsOnly
  refine ⟨fun s t o o' len' b h => ?_, fun s t o len o' v sc ad h ho' => ?_⟩
  · have hbytes : s.frameBytes = t.frameBytes := (exec_keeps_rest h).1.symm
    have hbit : ∀ p, p ≠ o → t.bitAt p = s.bitAt p := fun p hp =>
      exec_merge_bitAt (o := o) (len := 1) h rfl (fun _ _ => by decide) (by omega)
    refine ⟨hbit, fun ho => ?_⟩
    have hfield : ∀ p, inField o' len' p → s.bitAt p = t.bitAt p := fun p hp =>
      (hbit p fun hpo => ho (hpo ▸ hp)).symm
    exact ⟨hbits s t o' len' hbytes hfield, fun sc ad => hscaled s t o' len' sc ad hbytes hfield⟩
  · have hbytes : s.frameBytes = t.frameBytes := (exec_keeps_rest h).1.symm
    have hbit : t.bitAt o' = s.bitAt o' :=
      exec_merge_bitAt h rfl (fun _ => length_of_firstError_ok) ho'
    exact ⟨hbit, hbool s t o' hbytes hbit.symm⟩

end Sys2Proof.Machine

/-! ### The exact value of a binary32 value (41_field_codec R111, 93_implementation_defined G1) -/

namespace Sys2Proof.Machine

@[simp] theorem signUnit_true : signUnit true = -1 := rfl

@[simp] theorem signUnit_false : signUnit false = 1 := rfl

theorem signUnit_xor (a b : Bool) : signUnit (a ^^ b) = signUnit a * signUnit b := by
  cases a <;> cases b <;> norm_num

theorem signUnit_inv (a : Bool) : (signUnit a)⁻¹ = signUnit a := by
  cases a <;> norm_num

@[simp] theorem units_zero : F32.units 0 = 0 := rfl

theorem units_eq_zero {mag : Nat} : F32.units mag = 0 ↔ mag = 0 :=
  ⟨fun h => units_strictMono.injective (h.trans units_zero.symm), fun h => h ▸ units_zero⟩

@[simp] theorem signedUnits_zero (neg : Bool) : F32.signedUnits neg 0 = 0 := by
  cases neg <;> rfl

/-- Units that are not 0 have the sign of the value (93_implementation_defined G1). -/
theorem signedUnits_of_ne_zero (neg : Bool) {mag : Nat} (h : mag ≠ 0) :
    F32.signedUnits neg mag ≠ 0 ∧ decide (F32.signedUnits neg mag < 0) = neg ∧
      (F32.signedUnits neg mag).natAbs = F32.units mag := by
  have hunits : F32.units mag ≠ 0 := mt units_eq_zero.1 h
  cases neg with
  | false => simp [F32.signedUnits, hunits]
  | true => simp [F32.signedUnits, hunits, Nat.pos_of_ne_zero hunits]

/-- The value of a magnitude, from its exponent and its fraction (93_implementation_defined G1). -/
theorem units_of_fields (e : Nat) {f : Nat} (hf : f < 2 ^ 23) :
    (F32.units (e * 2 ^ 23 + f) : ℚ) / 2 ^ 149 =
      if e = 0 then 2 ^ (-126 : ℤ) * ((f : ℚ) / 2 ^ 23)
      else 2 ^ ((e : ℤ) - 127) * (1 + (f : ℚ) / 2 ^ 23) := by
  cases e with
  | zero =>
    rw [if_pos rfl, Nat.zero_mul, Nat.zero_add, units_small hf]
    norm_num
    ring
  | succ k =>
    have hmag : (k + 1) * 2 ^ 23 + f = k * 2 ^ 23 + (2 ^ 23 + f) := by ring
    have hexp : (2 : ℚ) ^ (((k + 1 : ℕ) : ℤ) - 127) = 2 ^ k / 2 ^ 126 := by
      rw [show ((k + 1 : ℕ) : ℤ) - 127 = (k : ℤ) - (126 : ℕ) by push_cast; ring,
        zpow_sub₀ two_ne_zero, zpow_natCast, zpow_natCast]
    rw [if_neg (Nat.succ_ne_zero k), hmag, units_binade k _ (.inr (by omega)) (by omega), hexp]
    push_cast
    ring

/-- What a word is, by its exponent and its fraction (41_field_codec R111). -/
theorem ofBits_cases (w : Word) :
    let e := (w.extractLsb' 23 8).toNat
    let f := (w.extractLsb' 0 23).toNat
    e < 0xFF ∧ F32.ofBits w = .finite (w.getLsbD 31) (e * 2 ^ 23 + f) ∨
    (e = 0xFF ∧ f = 0) ∧ F32.ofBits w = .inf (w.getLsbD 31) ∨
    (e = 0xFF ∧ f ≠ 0) ∧ F32.ofBits w = .nan := by
  intro e f
  have he : e < 2 ^ 8 := BitVec.isLt _
  have hf : f < 2 ^ 23 := BitVec.isLt _
  have hinf : F32.infMag = 0xFF * 2 ^ 23 := by decide
  simp only [F32.ofBits, magnitude_eq_fields]
  split_ifs with hfinite hinfinite
  · exact .inl ⟨by omega, rfl⟩
  · exact .inr (.inl ⟨by omega, rfl⟩)
  · exact .inr (.inr ⟨by omega, rfl⟩)

/-- Settles O60, by the three cases of a word. -/
theorem wordFieldsGiveTheValue : Obligations.WordFieldsGiveTheValue := by
  intro w x e f
  have hf : f < 2 ^ 23 := BitVec.isLt _
  have hcases : e < 0xFF ∧ x = .finite (w.getLsbD 31) (e * 2 ^ 23 + f) ∨
      (e = 0xFF ∧ f = 0) ∧ x = .inf (w.getLsbD 31) ∨ (e = 0xFF ∧ f ≠ 0) ∧ x = .nan := ofBits_cases w
  rcases hcases with ⟨he, hx⟩ | ⟨⟨he, hf0⟩, hx⟩ | ⟨⟨he, hf0⟩, hx⟩
  · refine ⟨?_, ?_, ?_, fun _ => by rw [hx, F32.sign], fun _ => ?_⟩
    · simp [hx, F32.isFinite, he.ne]
    · simp [hx, F32.isNan, he.ne]
    · simp [hx, F32.isZero]
    · rw [hx, toRat_finite, units_of_fields e hf, signUnit]
  · simp [hx, F32.isFinite, F32.isNan, F32.isZero, F32.sign, he, hf0]
  · simp [hx, F32.isFinite, F32.isNan, F32.isZero, he, hf0]

end Sys2Proof.Machine

/-! ### The operations round their exact results (41_field_codec R110, 93_implementation_defined G2 to G4) -/

namespace Sys2Proof.Machine

theorem isFinite_iff {x : F32} : x.isFinite = true ↔ ∃ neg mag, x = .finite neg mag := by
  cases x <;> simp [F32.isFinite]

theorem isZero_iff {x : F32} : x.isZero = true ↔ ∃ neg, x = .finite neg 0 := by
  cases x <;> simp [F32.isZero]

/-- A finite value that is no zero has a magnitude. -/
theorem mag_ne_zero {neg : Bool} {mag : Nat} (h : (F32.finite neg mag).isZero = false) : mag ≠ 0 :=
  of_decide_eq_false h

theorem F32.one_cast : (F32.one : ℚ) = 2 ^ 149 := by
  norm_num [F32.one]

theorem F32.one_pos : 0 < F32.one := by decide

/-- A magnitude whose value is the exact result is the answer. -/
theorem roundMag_of_units {m n d : Nat} (hd : 0 < d) (h : F32.units m * d = n) :
    F32.roundMag n d = m := by
  obtain ⟨near, -⟩ := roundMag_nearest n d m hd
  have hexact : (F32.units m : ℤ) * d - n = 0 := sub_eq_zero.2 (by exact_mod_cast h)
  rw [hexact, abs_zero, abs_nonpos_iff, sub_eq_zero] at near
  have hunits : F32.units (F32.roundMag n d) * d = F32.units m * d := by
    rw [h]
    exact_mod_cast near
  exact units_strictMono.injective (Nat.eq_of_mul_eq_mul_right hd hunits)

theorem round_of_units (neg : Bool) {m n d : Nat} (hm : m < F32.infMag) (hd : 0 < d)
    (h : F32.units m * d = n) : F32.round neg n d = .finite neg m := by
  rw [F32.round, roundMag_of_units hd h, if_pos hm]

/-- An exactly zero result is a zero of the given sign. -/
theorem round_zero (neg : Bool) {d : Nat} (hd : 0 < d) : F32.round neg 0 d = .finite neg 0 :=
  round_of_units neg (by decide) hd (Nat.zero_mul d)

/-! #### Products, quotients, sums and conversions -/

theorem mul_roundsTo (a b : Bool) (m n : Nat) :
    roundsTo ((F32.finite a m).toRat * (F32.finite b n).toRat) (F32.mul (.finite a m) (.finite b n)) := by
  rw [F32.mul]
  convert round_roundsTo (a ^^ b) (F32.units m * F32.units n) F32.one_pos using 1
  rw [toRat_finite, toRat_finite, signUnit_xor, F32.one_cast, Nat.cast_mul]
  ring

theorem div_roundsTo (a b : Bool) (m : Nat) {n : Nat} (hn : n ≠ 0) :
    roundsTo ((F32.finite a m).toRat / (F32.finite b n).toRat) (F32.div (.finite a m) (.finite b n)) := by
  have hunits : 0 < F32.units n := Nat.pos_of_ne_zero (mt units_eq_zero.1 hn)
  rw [F32.div, if_neg hn]
  convert round_roundsTo (a ^^ b) (F32.units m * F32.one) hunits using 1
  rw [toRat_finite, toRat_finite, signUnit_xor, Nat.cast_mul, F32.one_cast, mul_div_mul_comm,
    div_div_div_cancel_right₀ (by positivity), mul_div_mul_right _ _ (by positivity),
    div_eq_mul_inv (signUnit a), signUnit_inv]

/-- An integer is its sign and its absolute value. -/
theorem signUnit_mul_natAbs (t : ℤ) : signUnit (decide (t < 0)) * (t.natAbs : ℚ) = t := by
  rcases lt_or_ge t 0 with h | h
  · rw [decide_eq_true h, signUnit_true, Nat.cast_natAbs, abs_of_neg h, Int.cast_neg, neg_one_mul, neg_neg]
  · rw [decide_eq_false h.not_gt, signUnit_false, one_mul, Nat.cast_natAbs, abs_of_nonneg h]

/-- The exact sum of two finite values, in units. -/
theorem toRat_add (a b : Bool) (m n : Nat) :
    (F32.finite a m).toRat + (F32.finite b n).toRat =
      ((F32.signedUnits a m + F32.signedUnits b n : ℤ) : ℚ) / 2 ^ 149 := by
  rw [Int.cast_add, add_div]
  rfl

theorem sum_roundsTo (a b : Bool) (m n : Nat) :
    roundsTo ((F32.finite a m).toRat + (F32.finite b n).toRat) (F32.sum (.finite a m) (.finite b n)) := by
  rw [toRat_add, F32.sum]
  generalize F32.signedUnits a m + F32.signedUnits b n = t
  split
  · next hzero =>
    rw [← round_zero (a && b) Nat.one_pos]
    convert round_roundsTo (a && b) 0 Nat.one_pos using 1
    simp [hzero]
  · convert round_roundsTo (decide (t < 0)) t.natAbs Nat.one_pos using 1
    rw [Nat.cast_one, one_mul, ← mul_div_assoc, signUnit_mul_natAbs]

theorem toRat_negate (neg : Bool) (mag : Nat) :
    (F32.finite neg mag).negate.toRat = -(F32.finite neg mag).toRat := by
  rw [F32.negate, toRat_finite, toRat_finite, signUnit_not, neg_mul]

theorem sub_roundsTo (a b : Bool) (m n : Nat) :
    roundsTo ((F32.finite a m).toRat - (F32.finite b n).toRat) (F32.sub (.finite a m) (.finite b n)) := by
  rw [sub_eq_add_neg, ← toRat_negate]
  exact sum_roundsTo a (!b) m n

theorem ofNat_roundsTo (n : Nat) : roundsTo (n : ℚ) (F32.ofNat n) := by
  rw [F32.ofNat]
  convert round_roundsTo false (n * F32.one) Nat.one_pos using 1
  rw [signUnit_false, one_mul, Nat.cast_one, one_mul, Nat.cast_mul, F32.one_cast,
    mul_div_cancel_right₀ _ (by positivity)]

/-- Settles O47: each operation rounds its exact result once. -/
theorem operationsRoundToNearestEven : Obligations.OperationsRoundToNearestEven := by
  refine ⟨fun x y hx hy => ?_, fun n _ => ofNat_roundsTo n⟩
  obtain ⟨a, m, rfl⟩ := isFinite_iff.1 hx
  obtain ⟨b, n, rfl⟩ := isFinite_iff.1 hy
  refine ⟨mul_roundsTo a b m n, sum_roundsTo a b m n, sub_roundsTo a b m n, fun hdivisor => ?_⟩
  exact div_roundsTo a b m (mag_ne_zero hdivisor)

/-! #### Exact conversions -/

/-- An integer up to `2^24` is the value of a finite pattern: it has at most 24 significant bits, or is `2^24`. -/
theorem exists_units_eq_mul_one {n : Nat} (hn : n ≤ 2 ^ 24) :
    ∃ m, m < F32.infMag ∧ F32.units m = n * F32.one := by
  rcases Nat.eq_zero_or_pos n with rfl | hpos
  · exact ⟨0, by decide, by simp⟩
  · -- `j` is the exponent of `n`, and 23 for `2^24`, so that `n * 2^(23 - j)` is its significand
    obtain ⟨j, hj, hlow, hhigh⟩ : ∃ j ≤ 23, 2 ^ j ≤ n ∧ n ≤ 2 ^ (j + 1) := by
      rcases hn.lt_or_eq with hlt | rfl
      · refine ⟨Nat.log2 n, ?_, Nat.log2_self_le hpos.ne', Nat.lt_log2_self.le⟩
        exact Nat.le_of_lt_succ ((Nat.log2_lt hpos.ne').2 hlt)
      · exact ⟨23, le_rfl, by norm_num, le_rfl⟩
    have hr1 : 2 ^ 23 ≤ n * 2 ^ (23 - j) :=
      calc 2 ^ 23 = 2 ^ j * 2 ^ (23 - j) := by rw [← Nat.pow_add]; congr 1; omega
        _ ≤ n * 2 ^ (23 - j) := Nat.mul_le_mul_right _ hlow
    have hr2 : n * 2 ^ (23 - j) ≤ 2 ^ 24 :=
      calc n * 2 ^ (23 - j) ≤ 2 ^ (j + 1) * 2 ^ (23 - j) := Nat.mul_le_mul_right _ hhigh
        _ = 2 ^ 24 := by rw [← Nat.pow_add]; congr 1; omega
    refine ⟨(126 + j) * 2 ^ 23 + n * 2 ^ (23 - j), ?_, ?_⟩
    · have hinf : F32.infMag = 0xFF * 2 ^ 23 := by decide
      omega
    · rw [units_binade _ _ (.inr hr1) hr2, Nat.mul_assoc, ← Nat.pow_add, F32.one]
      congr 2
      omega

/-- Settles O48: an integer that is the value of a pattern is converted to that pattern. -/
theorem smallIntegersConvertExactly : Obligations.SmallIntegersConvertExactly := by
  intro n hn
  obtain ⟨m, hm, hunits⟩ := exists_units_eq_mul_one hn
  have hround : F32.ofNat n = .finite false m :=
    round_of_units false hm Nat.one_pos (by rw [hunits, Nat.mul_one])
  rw [hround]
  refine ⟨rfl, ?_⟩
  rw [toRat_finite, hunits, Nat.cast_mul, F32.one_cast, signUnit_false, one_mul,
    mul_div_cancel_right₀ _ (by positivity)]

/-! #### Signs, infinities and NaNs -/

/-- Two values whose sum is 0 are both of sign minus only where both are zeros. -/
theorem both_neg_of_signedUnits_add_eq_zero {a b : Bool} {m n : Nat}
    (h : F32.signedUnits a m + F32.signedUnits b n = 0) :
    (a && b) = (a && b && decide (m = 0) && decide (n = 0)) := by
  cases a with
  | false => rfl
  | true =>
    cases b with
    | false => rfl
    | true =>
      simp only [F32.signedUnits, if_true] at h
      have hm : m = 0 := units_eq_zero.1 (by omega)
      have hn : n = 0 := units_eq_zero.1 (by omega)
      rw [hm, hn]
      rfl

/-- Settles O49: a product and a quotient are rounded with the exclusive-or of the signs. -/
theorem signsOfZerosAndResults : Obligations.SignsOfZerosAndResults := by
  intro x y hx hy
  obtain ⟨a, m, rfl⟩ := isFinite_iff.1 hx
  obtain ⟨b, n, rfl⟩ := isFinite_iff.1 hy
  refine ⟨round_sign _ _ _, fun hdivisor => ?_, fun hsum => ?_⟩
  · rw [F32.div, if_neg (mag_ne_zero hdivisor)]
    exact round_sign _ _ _
  · rw [toRat_add, div_eq_zero_iff, or_iff_left (by positivity), Int.cast_eq_zero] at hsum
    simp only [F32.sum, hsum, if_true, F32.sign, F32.isZero]
    rw [← both_neg_of_signedUnits_add_eq_zero hsum]

/-- Settles O50, by the cases of each operation. -/
theorem nanOperandsAndInvalidOperations : Obligations.NanOperandsAndInvalidOperations := by
  refine ⟨fun a => ?_, fun x => ?_, fun x y => rfl, fun x y hy => ?_, fun x y hx hne hzero => ?_⟩
  · cases a <;> exact ⟨rfl, rfl, rfl, rfl, rfl, rfl, rfl, rfl⟩
  · cases x <;> exact ⟨rfl, rfl⟩
  · obtain ⟨b, n, rfl⟩ := isFinite_iff.1 hy
    exact ⟨rfl, rfl, rfl, rfl, rfl⟩
  · obtain ⟨a, m, rfl⟩ := isFinite_iff.1 hx
    obtain ⟨b, rfl⟩ := isZero_iff.1 hzero
    rw [F32.div, if_pos rfl, if_neg (mag_ne_zero hne)]
    rfl

end Sys2Proof.Machine

/-! ### The conversion of a quotient (41_field_codec R110, R113, R124) -/

namespace Sys2Proof.Machine

/-- A magnitude against a whole number, on the exact value. -/
theorem le_units_div_iff (k mag : Nat) :
    (k : ℚ) ≤ F32.units mag / 2 ^ 149 ↔ k * F32.one ≤ F32.units mag := by
  rw [le_div_iff₀ (by positivity), ← F32.one_cast, ← Nat.cast_mul, Nat.cast_le]

theorem units_div_nonneg (mag : Nat) : (0 : ℚ) ≤ F32.units mag / 2 ^ 149 := by positivity

/-- The test `q <= -1` is made on the exact value (93_implementation_defined G5). -/
theorem leMinusOne_finite (neg : Bool) (mag : Nat) :
    (F32.finite neg mag).leMinusOne = true ↔ (F32.finite neg mag).toRat ≤ -1 := by
  have hnonneg := units_div_nonneg mag
  rw [toRat_finite, F32.leMinusOne]
  cases neg with
  | false =>
    rw [signUnit_false]
    exact iff_of_false Bool.false_ne_true (by linarith)
  | true =>
    have hone := le_units_div_iff 1 mag
    rw [Nat.cast_one, Nat.one_mul] at hone
    rw [Bool.true_and, decide_eq_true_eq, ← hone, signUnit_true, neg_one_mul, neg_le_neg_iff]

/-- The test `q >= 2^32` is made on the exact value (93_implementation_defined G5). -/
theorem geTwoPow32_finite (neg : Bool) (mag : Nat) :
    (F32.finite neg mag).geTwoPow32 = true ↔ 2 ^ 32 ≤ (F32.finite neg mag).toRat := by
  have hnonneg := units_div_nonneg mag
  rw [toRat_finite, F32.geTwoPow32]
  cases neg with
  | false =>
    have hlimit := le_units_div_iff (2 ^ 32) mag
    rw [Nat.cast_pow, Nat.cast_ofNat] at hlimit
    rw [Bool.not_false, Bool.true_and, decide_eq_true_eq, ← hlimit, signUnit_false, one_mul]
  | true =>
    rw [signUnit_true]
    exact iff_of_false Bool.false_ne_true (by linarith)

/-- The range check passes on the finite quotients above -1 and below `2^32`. -/
theorem quotientOutOfRange_eq_false (q : F32) :
    quotientOutOfRange q = false ↔ q.isFinite = true ∧ -1 < q.toRat ∧ q.toRat < 2 ^ 32 := by
  cases q with
  | nan => simp [quotientOutOfRange, F32.isNan, F32.isFinite]
  | inf neg => cases neg <;> simp [quotientOutOfRange, F32.leMinusOne, F32.geTwoPow32, F32.isFinite]
  | finite neg mag =>
    rw [quotientOutOfRange, F32.isNan, F32.isFinite, Bool.false_or, Bool.or_eq_false_iff,
      ← Bool.not_eq_true, ← Bool.not_eq_true, leMinusOne_finite, geTwoPow32_finite, not_le, not_le]
    exact (and_iff_right rfl).symm

/-- Below `2^32` the converted number is the whole part of the magnitude. -/
theorem truncU32_toNat (neg : Bool) {mag : Nat} (h : (F32.units mag : ℚ) / 2 ^ 149 < 2 ^ 32) :
    (F32.finite neg mag).truncU32.toNat = ⌊(F32.units mag : ℚ) / 2 ^ 149⌋₊ := by
  have hfloor : F32.units mag / F32.one = ⌊(F32.units mag : ℚ) / 2 ^ 149⌋₊ := by
    rw [← F32.one_cast, Nat.floor_div_eq_div]
  have hlt : F32.units mag / F32.one < 2 ^ 32 := by
    rw [hfloor, Nat.floor_lt (units_div_nonneg mag)]
    exact_mod_cast h
  rw [F32.truncU32, BitVec.toNat_ofNat, Nat.mod_eq_of_lt hlt, hfloor]

/-- Settles O45: the whole part of the magnitude is the whole part of `q`, or 0 for a `q` above -1 that is not positive. -/
theorem truncationDiscardsTheFraction : Obligations.TruncationDiscardsTheFraction := by
  intro q hq hlow hhigh
  obtain ⟨neg, mag, rfl⟩ := isFinite_iff.1 hq
  have hnonneg := units_div_nonneg mag
  rw [toRat_finite] at hlow hhigh ⊢
  cases neg with
  | false =>
    rw [signUnit_false, one_mul] at hhigh ⊢
    rw [truncU32_toNat false hhigh]
    exact ⟨fun h => absurd h hnonneg.not_gt, fun _ => ⟨Nat.floor_le hnonneg, Nat.lt_floor_add_one _⟩⟩
  | true =>
    rw [signUnit_true, neg_one_mul] at hlow ⊢
    have hone : (F32.units mag : ℚ) / 2 ^ 149 < 1 := neg_lt_neg_iff.1 hlow
    have hzero : (F32.finite true mag).truncU32.toNat = 0 := by
      rw [truncU32_toNat true (hone.trans (by norm_num)), Nat.floor_eq_zero.2 hone]
    refine ⟨fun _ => BitVec.eq_of_toNat_eq hzero, fun h => ?_⟩
    rw [hzero, Nat.cast_zero]
    exact ⟨h, by linarith⟩

end Sys2Proof.Machine

/-! ### Scaled fields (41_field_codec R122, R123, R125) -/

namespace Sys2Proof.Machine

section
variable {s : State} {o len : Nat} {sc ad : Word}

/-- DECODE_SCALED of a legal field with a finite descriptor completes and answers the physical value of the field. -/
theorem exec_decodeScaled_of_fieldLegal (h : fieldLegal o len s.frameBytes)
    (hsc : (F32.ofBits sc).isFinite = true) (had : (F32.ofBits ad).isFinite = true) :
    exec (.decodeScaled o len sc ad) s =
      .next (s.respondOk (physical (readField s o len) (.ofBits sc) (.ofBits ad)).toBits) := by
  obtain ⟨hlen, h32, hend⟩ := h
  have hlength : ¬ (len = 0 ∨ len > 32) := by omega
  exact exec_without_error (by simp [commandErrors, firstError, hlength, hend, hsc, had])

/-- ENCODE_SCALED of a legal field with a finite descriptor and a scale that is not 0 is decided by the range check. -/
theorem exec_encodeScaled_of_fieldLegal (v : Word) (h : fieldLegal o len s.frameBytes)
    (hsc : (F32.ofBits sc).isFinite = true) (had : (F32.ofBits ad).isFinite = true)
    (hzero : (F32.ofBits sc).isZero = false) :
    exec (.encodeScaled o len v sc ad) s = .next
      (if quotientOutOfRange (quotient (.ofBits v) (.ofBits sc) (.ofBits ad)) then
        s.raise .conversionRange
      else
        (mergeField s o len
          (quotient (.ofBits v) (.ofBits sc) (.ofBits ad)).truncU32).respondOk 0) := by
  obtain ⟨hlen, h32, hend⟩ := h
  have hlength : ¬ (len = 0 ∨ len > 32) := by omega
  have hbounds : ¬ o + len > 8 * s.frameBytes := by omega
  rw [exec_eq_checked]
  simp (disch := decide) only [commandErrors, checked_cons, checked_nil, hlength, hbounds, hsc, had, hzero]
  rfl

end

/-- Settles O40: the field's value is what DECODE_BITS answers. -/
theorem decodeScaledComputesThePhysicalValue : Obligations.DecodeScaledComputesThePhysicalValue :=
  fun _ _ _ _ _ h hsc had =>
    ⟨_, exec_decodeBits_of_fieldLegal h, exec_decodeScaled_of_fieldLegal h hsc had⟩

/-- Settles O43: both commands merge the truncated quotient. -/
theorem encodeScaledStoresTheTruncatedQuotient : Obligations.EncodeScaledStoresTheTruncatedQuotient := by
  intro s o len v sc ad h hsc had hzero hrange
  refine ⟨_, ?_, exec_encodeBits_of_fieldLegal _ h, by simp⟩
  rw [exec_encodeScaled_of_fieldLegal v h hsc had hzero, quotient, hrange]
  rfl

/-- Settles O44: the range check is made on the exact value, and where it passes the response is OK. -/
theorem convertsExactlyTheQuotientsInRange : Obligations.ConvertsExactlyTheQuotientsInRange := by
  refine ⟨quotientOutOfRange_eq_false, fun s o len v sc ad h hsc had hzero => ?_⟩
  rw [exec_encodeScaled_of_fieldLegal v h hsc had hzero, ← quotient]
  split
  · next hrange => exact iff_of_true rfl hrange
  · next hrange =>
    refine iff_of_false (fun heq => ?_) hrange
    have hresponses := congrArg State.responses (Host.Outcome.next.inj heq)
    simp at hresponses

/-! #### No answer is a NaN -/

/-- A `u32` has a finite conversion. -/
theorem ofNat_isFinite {n : Nat} (hn : n < 2 ^ 32) : (F32.ofNat n).isFinite = true := by
  have hmag : F32.roundMag (n * F32.one) 1 < F32.infMag := by
    rw [← not_le, infMag_le_roundMag_iff _ _ Nat.one_pos, F32.one]
    omega
  rw [F32.ofNat, F32.round, if_pos hmag]
  rfl

/-- The product of finite values is no NaN (93_implementation_defined G3). -/
theorem mul_isNan_of_finite {x y : F32} (hx : x.isFinite = true) (hy : y.isFinite = true) :
    (F32.mul x y).isNan = false := by
  obtain ⟨a, m, rfl⟩ := isFinite_iff.1 hx
  obtain ⟨b, n, rfl⟩ := isFinite_iff.1 hy
  exact round_isNan _ _ _

/-- A sum with a finite value is a NaN only of a NaN (93_implementation_defined G3). -/
theorem sum_isNan_of_finite {x y : F32} (hx : x.isNan = false) (hy : y.isFinite = true) :
    (F32.sum x y).isNan = false := by
  obtain ⟨b, n, rfl⟩ := isFinite_iff.1 hy
  cases x with
  | nan => cases hx
  | inf a => rfl
  | finite a m =>
    simp only [F32.sum]
    split
    · rfl
    · exact round_isNan _ _ _

theorem physical_isNan {raw : Word} {sc ad : F32} (hsc : sc.isFinite = true) (had : ad.isFinite = true) :
    (physical raw sc ad).isNan = false :=
  sum_isNan_of_finite (mul_isNan_of_finite (ofNat_isFinite raw.isLt) hsc) had

/-- A sum is a pattern: it was rounded, or is a zero or one of the operands. -/
theorem sum_valid (x y : F32) : (F32.sum x y).valid = true := by
  cases x with
  | nan => rfl
  | inf a =>
    cases y with
    | nan => rfl
    | inf b => cases a <;> cases b <;> rfl
    | finite b n => rfl
  | finite a m =>
    cases y with
    | nan => rfl
    | inf b => rfl
    | finite b n =>
      simp only [F32.sum]
      split
      · rfl
      · exact round_valid _ _ _

/-- The word that DECODE_SCALED answers is read back as the physical value. -/
theorem ofBits_physical (raw : Word) (sc ad : F32) :
    F32.ofBits (physical raw sc ad).toBits = physical raw sc ad :=
  ofBits_toBits (sum_valid _ _)

/-- A DECODE_SCALED without an error has a finite descriptor (60_exceptions R144). -/
theorem descriptor_isFinite_of_firstError_ok {o len n : Nat} {sc ad : Word}
    (h : firstError (commandErrors n (.decodeScaled o len sc ad)) = .ok) :
    (F32.ofBits sc).isFinite = true ∧ (F32.ofBits ad).isFinite = true := by
  simp only [commandErrors, firstError] at h
  split_ifs at h with _ _ hdescriptor
  simpa using hdescriptor

/-- Settles O41: an error answers 0, and a finite descriptor gives a physical value that is no NaN. -/
theorem decodeScaledNeverAnswersNaN : Obligations.DecodeScaledNeverAnswersNaN := by
  intro s o len sc ad
  by_cases hok : firstError (commandErrors s.frameBytes (.decodeScaled o len sc ad)) = .ok
  · obtain ⟨hsc, had⟩ := descriptor_isFinite_of_firstError_ok hok
    refine ⟨_, _, exec_without_error hok, ?_⟩
    rw [ofBits_physical]
    exact physical_isNan hsc had
  · exact ⟨_, 0, exec_with_error hok, by decide⟩

/-! #### A zero scale -/

/-- A finite value times a zero is a zero. -/
theorem mul_zero_of_finite {x : F32} (hx : x.isFinite = true) (b : Bool) :
    ∃ c, F32.mul x (.finite b 0) = .finite c 0 := by
  obtain ⟨a, m, rfl⟩ := isFinite_iff.1 hx
  exact ⟨a ^^ b, round_zero _ F32.one_pos⟩

/-- A zero plus a finite pattern has the value of that pattern: the sum of two zeros is a zero, and any other pattern is its own
rounding. -/
theorem zero_sum (a b : Bool) {m : Nat} (hm : m < F32.infMag) :
    ∃ c, F32.sum (.finite a 0) (.finite b m) = .finite c m ∧
      (F32.finite c m).toRat = (F32.finite b m).toRat := by
  simp only [F32.sum, signedUnits_zero, zero_add]
  by_cases hm0 : m = 0
  · subst hm0
    refine ⟨a && b, if_pos (signedUnits_zero b), ?_⟩
    rw [toRat_finite, toRat_finite, units_zero, Nat.cast_zero, zero_div, mul_zero, mul_zero]
  · obtain ⟨hne, hsign, habs⟩ := signedUnits_of_ne_zero b hm0
    refine ⟨b, ?_, rfl⟩
    rw [if_neg hne, hsign, habs]
    exact round_of_units b hm Nat.one_pos (Nat.mul_one _)

/-- Settles O42: the product with the scale is a zero, which `add` is added to. -/
theorem zeroScaleDecodesToAdd : Obligations.ZeroScaleDecodesToAdd := by
  intro s o len sc ad h hzero had
  obtain ⟨a, hsc⟩ := isZero_iff.1 hzero
  obtain ⟨b, m, hadd⟩ := isFinite_iff.1 had
  have hm : m < F32.infMag := by simpa [hadd, F32.valid] using ofBits_valid ad
  refine ⟨_, exec_decodeScaled_of_fieldLegal h (by rw [hsc]; rfl) had, ?_⟩
  rw [ofBits_physical, physical, hsc, hadd]
  obtain ⟨c, hmul⟩ := mul_zero_of_finite (ofNat_isFinite (readField s o len).isLt) a
  obtain ⟨c', hsum, hvalue⟩ := zero_sum c b hm
  rw [hmul, hsum]
  exact ⟨rfl, hvalue⟩

/-! #### The spec's example -/

/-- The quotient of 2.81 with the scale 0.05 and the offset -10 is converted to 256 (41_field_codec R125). -/
theorem quotient_example :
    quotientOutOfRange (quotient (.ofBits 0x4033D70A) (.ofBits 0x3D4CCCCD) (.ofBits 0xC1200000)) = false ∧
    (quotient (.ofBits 0x4033D70A) (.ofBits 0x3D4CCCCD) (.ofBits 0xC1200000)).truncU32 = 256 := by
  decide +kernel

/-- The physical value of the raw number 256 is 2.8000002 (41_field_codec R125). -/
theorem physical_example :
    (physical 256 (.ofBits 0x3D4CCCCD) (.ofBits 0xC1200000)).toBits = 0x40333334 := by
  decide +kernel

/-- Settles O46: 256 is merged into zeroed positions and read back. -/
theorem scaledRoundTripExample : Obligations.ScaledRoundTripExample := by
  refine ⟨fun s h hzero => ?_, ?_⟩
  · obtain ⟨hrange, htrunc⟩ := quotient_example
    have hread : readField (mergeField s 14 10 256) 14 10 = 256 := by
      rw [readField_mergeField s _ (by decide) (by decide), readField_eq_zero (by decide) (by decide) hzero]
      decide
    refine ⟨(mergeField s 14 10 256).respondOk 0, ?_, ?_⟩
    · rw [exec_encodeScaled_of_fieldLegal _ h (by decide) (by decide) (by decide), hrange, htrunc]
      rfl
    · have hlegal : fieldLegal 14 10 ((mergeField s 14 10 256).respondOk 0).frameBytes := by simpa using h
      have hread' : readField ((mergeField s 14 10 256).respondOk 0) 14 10 = 256 := hread
      rw [exec_decodeScaled_of_fieldLegal hlegal (by decide) (by decide), hread', physical_example]
  · have hx : F32.ofBits 0x40333334 = .finite false 0x40333334 := by decide
    rw [hx, toRat_finite, signUnit_false, one_mul]
    norm_num [F32.units]

end Sys2Proof.Machine

/-! ### The status of a command (60_exceptions R140, R147) -/

namespace Sys2Proof.Machine

/-- Errors that do not stand in the list are not reported. -/
theorem firstError_ne {st : Status} (hst : st ≠ .ok) {errors : List (Status × Bool)}
    (h : ∀ e ∈ errors, e.1 ≠ st) : firstError errors ≠ st := by
  induction errors with
  | nil => exact hst.symm
  | cons e errors ih =>
    obtain ⟨he, herrors⟩ := List.forall_mem_cons.1 h
    rw [firstError]
    split
    · exact he
    · exact ih herrors

/-- An error that stands first in the list, and nowhere else, is reported exactly when it applies. -/
theorem firstError_cons_eq_iff {st : Status} (hst : st ≠ .ok) (b : Bool) {errors : List (Status × Bool)}
    (h : ∀ e ∈ errors, e.1 ≠ st) : firstError ((st, b) :: errors) = st ↔ b = true := by
  have hrest : firstError errors ≠ st := firstError_ne hst h
  cases b with
  | true => exact iff_of_true rfl rfl
  | false => exact iff_of_false hrest Bool.false_ne_true

/-- No test after decoding answers ILLEGAL_COMMAND (60_exceptions R146). -/
theorem firstError_ne_illegalCommand (n : Nat) (i : Instr) :
    firstError (commandErrors n i) ≠ .illegalCommand := by
  cases i <;> exact firstError_ne (by decide) (by simp [commandErrors])

/-- A command whose checks have passed responds with OK. -/
theorem effect_responses (i : Instr) (s : State) :
    ∃ x, (effect i s).responses = s.responses ++ [⟨.ok, x⟩] := by
  cases i <;> simp [effect]

/-- A command responds with its first error, or OK (60_exceptions R147). -/
theorem exec_status (i : Instr) (s : State) :
    ∃ t r, exec i s = .next t ∧ t.responses = s.responses ++ [r] ∧
      r.status = firstError (commandErrors s.frameBytes i) ∧ (r.status ≠ .ok → t = s.raise r.status) := by
  by_cases hok : firstError (commandErrors s.frameBytes i) = .ok
  · obtain ⟨x, hx⟩ := effect_responses i s
    exact ⟨_, _, exec_without_error hok, hx, hok.symm, fun h => absurd rfl h⟩
  · exact ⟨_, _, exec_with_error hok, rfl, rfl, fun _ => rfl⟩

/-- A command fails with a status exactly when that is its first error. -/
theorem exec_eq_raise_iff {i : Instr} {s : State} {st : Status} (hst : st ≠ .ok) :
    exec i s = .next (s.raise st) ↔ firstError (commandErrors s.frameBytes i) = st := by
  constructor
  · intro h
    obtain ⟨t, r, ht, hr, hstatus, -⟩ := exec_status i s
    rw [h] at ht
    cases ht
    rw [← hstatus, eq_of_respond hr]
  · rintro rfl
    exact exec_with_error hst

/-- Settles O52: a word that does not decode is answered at once, and an instruction with its first error. -/
theorem statusIsTheFirstErrorInOrder : Obligations.StatusIsTheFirstErrorInOrder := by
  intro s c rest hs
  rw [step_action hs, performAction]
  cases hc : decode c with
  | error e => exact ⟨_, _, performCommand_illegal hc _, rfl, rfl, fun _ => rfl⟩
  | ok i =>
    obtain ⟨t, r, ht, hr, hstatus, hfail⟩ := exec_status i { s with host := rest }
    refine ⟨t, r, (performCommand_legal hc _).trans ht, hr, hstatus, fun hne => ?_⟩
    rw [hfail hne, raise_frame]

/-! #### Illegal words (60_exceptions R146) -/

/-- The grounds on which a command word is illegal (30_encoding R68, 60_exceptions R146). -/
def illegalWord (c : Command) : Prop :=
  c.op = 6 ∨ c.op = 7 ∨ c.rsv0 ≠ 0 ∨ c.rsv1 ≠ 0 ∨ ((c.op = 2 ∨ c.op = 3) ∧ c.lengthField ≠ 0)

/-- Each opcode but 6 and 7 names an operation (30_encoding R61). -/
theorem reserved_or_eq_bits (b : BitVec 3) : b = 6 ∨ b = 7 ∨ ∃ op : Opcode, b = op.bits := by
  cases hb : Opcode.ofBits b with
  | some op => exact .inr (.inr ⟨op, Opcode.ofBits_eq_some_iff.1 hb⟩)
  | none =>
    have hreserved : ∀ b, Opcode.ofBits b = none → b = 6 ∨ b = 7 := by decide
    exact (hreserved b hb).imp_right .inl

/-- No operation has the opcode 6 or 7 (30_encoding R61). -/
theorem bits_ne_reserved (op : Opcode) : op.bits ≠ 6 ∧ op.bits ≠ 7 := by
  cases op <;> decide

/-- A BOOL opcode is 2 or 3 (30_encoding R61). -/
theorem bits_eq_two_or_three_iff (op : Opcode) : op.bits = 2 ∨ op.bits = 3 ↔ op.isBool = true := by
  cases op <;> decide

/-- A word that names an operation is illegal exactly when it is not legal for that operation. -/
theorem illegalWord_iff_not_legalFor {c : Command} {op : Opcode} (hop : c.op = op.bits) :
    illegalWord c ↔ ¬ c.legalFor op := by
  obtain ⟨h6, h7⟩ := bits_ne_reserved op
  rw [illegalWord, Command.legalFor, hop, or_iff_right h6, or_iff_right h7, bits_eq_two_or_three_iff,
    and_iff_right rfl]
  tauto

/-- The decoder rejects exactly the words that are illegal. -/
theorem illegalWord_iff_not_decodes (c : Command) : illegalWord c ↔ ∀ i, decode c ≠ .ok i := by
  have hlegal : (∀ i, decode c ≠ .ok i) ↔ ∀ op, ¬ c.legalFor op := by
    simp [decode_eq_ok_iff]
  rw [hlegal]
  rcases reserved_or_eq_bits c.op with h6 | h7 | ⟨op, hop⟩
  · refine iff_of_true (.inl h6) fun op ⟨hop, _⟩ => ?_
    exact (bits_ne_reserved op).1 (hop.symm.trans h6)
  · refine iff_of_true (.inr (.inl h7)) fun op ⟨hop, _⟩ => ?_
    exact (bits_ne_reserved op).2 (hop.symm.trans h7)
  · rw [illegalWord_iff_not_legalFor hop]
    refine ⟨fun h op' hl => h ?_, fun h => h op⟩
    rwa [Opcode.bits_injective (hop.symm.trans hl.1)]

/-- Settles O18: the illegal words are those that the decoder rejects, and no instruction answers their status. -/
theorem illegalWordsGetIllegalCommand : Obligations.IllegalWordsGetIllegalCommand := by
  refine ⟨rfl, fun s c rest hs => ⟨fun hill => ?_, fun hlegal => ?_⟩⟩
  · cases hc : decode c with
    | ok i => exact absurd hc ((illegalWord_iff_not_decodes c).1 hill i)
    | error e => exact (step_action hs).trans (performCommand_illegal hc _)
  · obtain ⟨i, hc⟩ := not_forall_not.1 (mt (illegalWord_iff_not_decodes c).2 hlegal)
    obtain ⟨t, r, ht, hr, hstatus, -⟩ := exec_status i { s with host := rest }
    exact ⟨t, r, (step_command_legal hs hc).trans ht, hr, hstatus ▸ firstError_ne_illegalCommand _ i⟩

/-! #### A command that fails (60_exceptions R141) -/

/-- A command that fails, an illegal one too, only adds its response, with `RESULT` 0. -/
theorem performCommand_failed {c : Command} {s t : State} {r : Response}
    (h : performCommand c s = .next t) (hr : t.responses = s.responses ++ [r]) (hne : r.status ≠ .ok) :
    t = { s with responses := s.responses ++ [r] } ∧ r.result = 0 := by
  have hraise : ∃ st, t = s.raise st := by
    cases hc : decode c with
    | error e =>
      rw [performCommand_illegal hc] at h
      cases h
      exact ⟨_, rfl⟩
    | ok i =>
      obtain ⟨t', r', ht', hr', -, hfail⟩ := exec_status i s
      rw [performCommand_legal hc, ht'] at h
      cases h
      obtain rfl : r' = r := by simpa using hr'.symm.trans hr
      exact ⟨_, hfail hne⟩
  obtain ⟨st, rfl⟩ := hraise
  obtain rfl := eq_of_respond hr
  exact ⟨rfl, rfl⟩

/-- Any command does the same on two states with the same `FRAME_BYTES` and the same bytes (10_state R20, R22, R24). -/
theorem performCommand_answeredAlike {s t : State} (hbytes : s.frameBytes = t.frameBytes)
    (h : sameFrame s t) (c : Command) :
    ∃ s' t', performCommand c s = .next s' ∧ performCommand c t = .next t' ∧ answeredAlike s t s' t' := by
  cases hc : decode c with
  | error e =>
    exact ⟨_, _, performCommand_illegal hc s, performCommand_illegal hc t, respond_answeredAlike h _ 0⟩
  | ok i =>
    obtain ⟨s', t', r, hs', ht', halike⟩ := commandDependsOnFrameOnly s t i hbytes h
    exact ⟨s', t', (performCommand_legal hc s).trans hs', (performCommand_legal hc t).trans ht', r, halike⟩

/-- Settles O53: the failing command leaves all that decides what the next one does. -/
theorem failingCommandChangesNothingElse : Obligations.FailingCommandChangesNothingElse := by
  intro s t c rest r hs hstep hr hne
  have hperform : performCommand c { s with host := rest } = .next t := (step_action hs).symm.trans hstep
  obtain ⟨rfl, hresult⟩ := performCommand_failed hperform hr hne
  refine ⟨hresult, rfl, fun d => ?_⟩
  obtain ⟨u, u', hu, hu', q, hframe, hq, hq'⟩ := performCommand_answeredAlike
    (s := { s with host := rest, responses := s.responses ++ [r] }) (t := { s with host := rest })
    rfl (fun _ => rfl) d
  exact ⟨u, u', q, hu, hu', hframe, hq, hq'⟩

/-! #### Length and bounds (60_exceptions R142, R143) -/

/-- Settles O55: the length is the first of the tests. -/
theorem badLengthIsInvalidLength : Obligations.BadLengthIsInvalidLength := by
  refine ⟨rfl, fun s o len v sc ad hlen => ?_⟩
  have hfirst : ∀ errors, firstError ((.invalidLength, decide (len = 0 ∨ len > 32)) :: errors) =
      .invalidLength := fun _ => if_pos (decide_eq_true hlen)
  refine ⟨?_, ?_, ?_, ?_⟩ <;> exact (exec_eq_raise_iff (by decide)).2 (hfirst _)

/-- A field of a legal length is tested for the errors after the length. -/
theorem firstError_of_length {len : Nat} (h1 : 1 ≤ len) (h32 : len ≤ 32) (errors : List (Status × Bool)) :
    firstError ((.invalidLength, decide (len = 0 ∨ len > 32)) :: errors) = firstError errors :=
  if_neg (mt of_decide_eq_true (by omega))

/-- A command whose first test but for the length is that of bounds fails with OUT_OF_BOUNDS when that test applies. -/
theorem exec_outOfBounds_iff {i : Instr} {s : State} {e : Nat} {errors : List (Status × Bool)}
    (hfirst : firstError (commandErrors s.frameBytes i) =
      firstError ((.outOfBounds, decide (e > 8 * s.frameBytes)) :: errors))
    (herrors : ∀ x ∈ errors, x.1 ≠ .outOfBounds) :
    exec i s = .next (s.raise .outOfBounds) ↔ 8 * s.frameBytes < e := by
  rw [exec_eq_raise_iff (by decide), hfirst, firstError_cons_eq_iff (by decide) _ herrors,
    decide_eq_true_iff]

/-- Settles O56: past a legal length, the bounds are the first of the tests. -/
theorem fieldPastTheEndIsOutOfBounds : Obligations.FieldPastTheEndIsOutOfBounds := by
  refine ⟨rfl, fun s o len v sc ad b h1 h32 => ⟨?_, ?_, ?_, ?_, ?_, ?_⟩⟩
  · exact exec_outOfBounds_iff (firstError_of_length h1 h32 _) (by simp)
  · exact exec_outOfBounds_iff (firstError_of_length h1 h32 _) (by simp)
  · exact exec_outOfBounds_iff (firstError_of_length h1 h32 _) (by simp)
  · exact exec_outOfBounds_iff (firstError_of_length h1 h32 _) (by simp)
  · exact exec_outOfBounds_iff (errors := []) rfl (by simp)
  · exact exec_outOfBounds_iff (errors := []) rfl (by simp)

/-! #### The descriptor and the quotient (60_exceptions R144, R145, R148) -/

/-- A legal field is tested for the errors after the length and the bounds. -/
theorem firstError_after_bounds {o len n : Nat} (h : fieldLegal o len n) (errors : List (Status × Bool)) :
    firstError ((.invalidLength, decide (len = 0 ∨ len > 32)) ::
      (.outOfBounds, decide (o + len > 8 * n)) :: errors) = firstError errors := by
  obtain ⟨h1, h32, hend⟩ := h
  rw [firstError_of_length h1 h32]
  exact if_neg (mt of_decide_eq_true hend.not_gt)

/-- Settles O57: on a legal field the descriptor is the first of the tests. -/
theorem nonFiniteDescriptorIsNonFinite : Obligations.NonFiniteDescriptorIsNonFinite := by
  refine ⟨rfl, fun s o len v sc ad h hdescriptor => ?_⟩
  have hfirst : ∀ errors, firstError
      ((.nonFinite, !(F32.ofBits sc).isFinite || !(F32.ofBits ad).isFinite) :: errors) = .nonFinite :=
    fun _ => if_pos (by simpa using hdescriptor)
  exact ⟨(exec_eq_raise_iff (by decide)).2 ((firstError_after_bounds h _).trans (hfirst _)),
    (exec_eq_raise_iff (by decide)).2 ((firstError_after_bounds h _).trans (hfirst _))⟩

/-- A zero is finite (41_field_codec R110). -/
theorem isFinite_of_isZero {x : F32} (h : x.isZero = true) : x.isFinite = true := by
  obtain ⟨neg, rfl⟩ := isZero_iff.1 h
  rfl

/-- Settles O58: DECODE_SCALED has no test of the scale, and in ENCODE_SCALED it follows that of the descriptor. -/
theorem zeroScaleIsInvalidOnEncodeOnly : Obligations.ZeroScaleIsInvalidOnEncodeOnly := by
  refine ⟨rfl, by decide, by decide, fun s o len sc ad h => ?_, fun s o len v sc ad h hzero had => ?_⟩
  · exact firstError_ne (by decide) (by simp [commandErrors]) ((exec_eq_raise_iff (by decide)).1 h)
  · have hsc := isFinite_of_isZero hzero
    refine ⟨(exec_eq_raise_iff (by decide)).2 ?_, _, exec_decodeScaled_of_fieldLegal h hsc had⟩
    rw [commandErrors, firstError_after_bounds h]
    simp [firstError, hsc, had, hzero]

/-- With a finite descriptor, a `VALUE` that is not finite gives a quotient that is not finite (41_field_codec R123). -/
theorem quotient_isFinite_of_value {x sc ad : F32} (hx : x.isFinite = false) (hsc : sc.isFinite = true)
    (had : ad.isFinite = true) : (quotient x sc ad).isFinite = false := by
  obtain ⟨a, m, rfl⟩ := isFinite_iff.1 hsc
  obtain ⟨b, n, rfl⟩ := isFinite_iff.1 had
  cases x with
  | finite neg mag => cases hx
  | nan => rfl
  | inf neg => rfl

/-- A quotient that is not finite is out of range (60_exceptions R145). -/
theorem quotientOutOfRange_of_not_finite {q : F32} (h : q.isFinite = false) : quotientOutOfRange q = true := by
  rw [← Bool.not_eq_false, quotientOutOfRange_eq_false]
  simp [h]

/-- Settles O59: the range check is the last of the tests, and fails for a `VALUE` that is not finite. -/
theorem quotientOutOfRangeIsConversionRange : Obligations.QuotientOutOfRangeIsConversionRange := by
  refine ⟨rfl, fun s o len v sc ad h hsc had hzero hq => ?_⟩
  rw [exec_encodeScaled_of_fieldLegal v h hsc had hzero, if_pos]
  rcases hq with hvalue | hrange
  · exact quotientOutOfRange_of_not_finite (quotient_isFinite_of_value hvalue hsc had)
  · simpa [quotientOutOfRange, quotient, or_assoc] using hrange

/-! #### No host action left (60_exceptions R156) -/

/-- Settles O6: a step performs the oldest host action, and there is none. -/
theorem idleStepChangesNothing : Obligations.IdleStepChangesNothing :=
  fun _ => step_idle

end Sys2Proof.Machine

/-! ### Reset, the host's actions and the frame's bits (70_reset_and_hazards R160 to R171) -/

namespace Sys2Proof.Machine

/-! #### What an action of the host keeps (70_reset_and_hazards R162, R170) -/

/-- A command that completes adds one response, and leaves the parameter, the host's actions and its reads (20_memory R47). -/
theorem performCommand_keeps_rest {c : Command} {s t : State} (h : performCommand c s = .next t) :
    t.frameBytes = s.frameBytes ∧ t.host = s.host ∧ t.hostReads = s.hostReads ∧
      ∃ r, t.responses = s.responses ++ [r] := by
  cases hc : decode c with
  | ok i => exact exec_keeps_rest (performCommand_legal hc s ▸ h)
  | error e =>
    rw [performCommand_illegal hc] at h
    cases h
    exact ⟨rfl, rfl, rfl, _, rfl⟩

/-- A host write that completes did write the byte. -/
theorem hostWrite_next {i : Nat} {v : Byte} {s t : State} (h : hostWrite i v s = .next t) :
    t = s.memWrite i v := by
  rcases lt_or_ge i s.frameBytes with hi | hi
  · rw [hostWrite_inside hi] at h
    cases h
    rfl
  · rw [hostWrite_outside hi] at h
    cases h

/-- A host read that completes did keep the byte it read (log 4). -/
theorem hostRead_next {i : Nat} {s t : State} (h : hostRead i s = .next t) :
    t = { s with hostReads := s.hostReads ++ [(i, s.memRead i)] } := by
  rcases lt_or_ge i s.frameBytes with hi | hi
  · rw [hostRead_inside hi] at h
    cases h
    rfl
  · rw [hostRead_outside hi] at h
    cases h

/-- An action that completes leaves the parameter and the actions to come, keeps what was answered and read, and adds a response
exactly when it is a command (70_reset_and_hazards R171). -/
theorem performAction_keeps_history {a : HostAction} {s t : State} (h : performAction a s = .next t) :
    t.frameBytes = s.frameBytes ∧ t.host = s.host ∧ s.hostReads <+: t.hostReads ∧
      s.responses <+: t.responses ∧
      t.responses.length = s.responses.length + if a.isCommand then 1 else 0 := by
  cases a with
  | command c =>
    obtain ⟨hbytes, hhost, hreads, r, hr⟩ := performCommand_keeps_rest h
    exact ⟨hbytes, hhost, hreads ▸ List.prefix_rfl, hr ▸ List.prefix_append _ _,
      by simp [hr, HostAction.isCommand]⟩
  | writeByte i v =>
    obtain rfl := hostWrite_next h
    exact ⟨rfl, rfl, List.prefix_rfl, List.prefix_rfl, rfl⟩
  | readByte i =>
    obtain rfl := hostRead_next h
    exact ⟨rfl, rfl, List.prefix_append _ _, List.prefix_rfl, rfl⟩
  | reset u =>
    cases h
    exact ⟨rfl, rfl, List.prefix_rfl, List.prefix_rfl, rfl⟩

/-- Settles O4: the oldest action, taken off the list, leaves the rest of the list and the history. -/
theorem stepKeepsParameterAndHistory : Obligations.StepKeepsParameterAndHistory := by
  intro s t h
  cases hs : s.host with
  | nil =>
    rw [step_idle hs] at h
    cases h
    exact ⟨rfl, hs, List.prefix_rfl, List.prefix_rfl⟩
  | cons a rest =>
    rw [step_action hs] at h
    obtain ⟨hbytes, hhost, hreads, hresponses, -⟩ := performAction_keeps_history h
    exact ⟨hbytes, hhost, hresponses, hreads⟩

/-! #### A run of actions ends (70_reset_and_hazards R169, R171) -/

/-- An action that keeps the host's contract completes (70_reset_and_hazards R170, 60_exceptions R141). -/
theorem performAction_completes {a : HostAction} {s : State} (ha : a.allowed s.frameBytes = true) :
    ∃ t, performAction a s = .next t := by
  cases a with
  | command c =>
    obtain ⟨t, -, ht, -⟩ := performCommand_responds c s
    exact ⟨t, ht⟩
  | writeByte i v => exact ⟨_, hostWrite_inside (of_decide_eq_true ha) v⟩
  | readByte i => exact ⟨_, hostRead_inside (of_decide_eq_true ha)⟩
  | reset u => exact ⟨s, rfl⟩

/-- Settles O11, by induction on the list of actions: the first one completes, and the rest is allowed after it too. -/
theorem runOfHostActionsEnds : Obligations.RunOfHostActionsEnds := by
  intro s hallowed
  induction hs : s.host generalizing s with
  | nil => exact ⟨s, core_run_zero s, hs, List.prefix_rfl, rfl⟩
  | cons a rest ih =>
    rw [hs, List.forall_mem_cons] at hallowed
    obtain ⟨hfirst, hrest⟩ := hallowed
    obtain ⟨u, hu⟩ := performAction_completes (s := { s with host := rest }) hfirst
    obtain ⟨hbytes, hhost, -, hprefix, hcount⟩ := performAction_keeps_history hu
    have hrest' : ∀ b ∈ u.host, b.allowed u.frameBytes = true := by
      rw [hhost, hbytes]
      exact hrest
    obtain ⟨t, hrun, hnone, hprefix', hcount'⟩ := ih u hrest' hhost
    refine ⟨t, (core_run_succ _ ((step_action hs).trans hu)).trans hrun, hnone,
      hprefix.trans hprefix', ?_⟩
    rw [hcount', hcount, List.countP_cons, Nat.add_assoc, Nat.add_comm (List.countP _ rest)]

/-! #### The bits that a command keeps (70_reset_and_hazards R163, R165, R166) -/

/-- Settles O13: a response leaves every bit, and a merge adds bits to the old ones by OR. -/
theorem noCommandClearsABit : Obligations.NoCommandClearsABit := by
  intro s t i p h hp
  rcases exec_next_cases h with ⟨st, -, rfl⟩ | ⟨r, rfl⟩ | ⟨o, len, v, ⟨hlen, h32, -⟩, rfl⟩
  · exact hp
  · exact hp
  · rw [respondOk_bitAt, bitAt_mergeField s v hlen h32, hp, Bool.true_or]

/-- Settles O36: no test of ENCODE_BITS looks at `VALUE`, and its merge uses the low `L` bits. -/
theorem encodeBitsKeepsLowBitsOnly : Obligations.EncodeBitsKeepsLowBitsOnly := by
  intro s o len v
  have heffect : effect (.encodeBits o len (v &&& mask 32 len)) s = effect (.encodeBits o len v) s :=
    congrArg (State.respondOk · 0) (mergeField_mask s o len v)
  rw [exec_eq_checked, exec_eq_checked, heffect, commandErrors, commandErrors]

/-! #### The reset event and the host's accesses (70_reset_and_hazards R160, R170) -/

/-- Settles O5: the event is the oldest action, and after it the command is. -/
theorem resetEventDiscardsAndChangesNothing : Obligations.ResetEventDiscardsAndChangesNothing :=
  fun s _ rest hs =>
    ⟨step_action hs, fun _ _ hrest => step_action (s := { s with host := rest }) hrest⟩

/-- Settles O8: an index below `FRAME_BYTES` passes the test of either access, and a write changes its own byte only. -/
theorem hostAccessesOneExistingByte : Obligations.HostAccessesOneExistingByte := by
  refine ⟨fun s i v rest hs hi => ?_, fun s i rest hs hi => ?_⟩
  · have hrest : i < State.frameBytes { s with host := rest } := hi
    exact ⟨_, (step_action hs).trans (hostWrite_inside hrest v), rfl, rfl, rfl, rfl,
      memRead_memWrite_same _ i v, fun _ => memRead_memWrite_ne _ v⟩
  · have hrest : i < State.frameBytes { s with host := rest } := hi
    exact (step_action hs).trans (hostRead_inside hrest)

end Sys2Proof.Machine
